-- ==== Sys2Proof/Word.lean ====
section
/-! DEFINITION. The widths of 00_scope.md R6: the 16-bit memory word (WORD_BITS), the 15-bit register
value (REG_BITS), the image byte, and the index of one of the 8 registers (REG_COUNT). -/

namespace Sys2Proof

/-- A memory word, stack entry, opcode word or operand word (R6: WORD_BITS = 16). -/
abbrev Word := BitVec 16

/-- What a register holds and a resolved read operand is: 0..32767 (R6: REG_BITS = 15, R20). -/
abbrev Value := BitVec 15

/-- A byte of the image (20_memory.md R51, R53). -/
abbrev Byte := BitVec 8

/-- A register index, 0..7 (10_state.md R20). -/
abbrev RegIdx := Fin 8

end Sys2Proof
end

