-- ==== Sys2Proof/Syntax.lean ====
section
/-! DEFINITION. The instructions of SYN-VM as syntax: 30_encoding.md R73 (operand words), R75 and R77 (the 22 rows of the opcode
map with the kind of each operand). -/

namespace Sys2Proof

/-- The three classes of an operand word (R73). -/
inductive Operand where
  /-- 0..32767: the number itself. -/
  | lit (v : Value)
  /-- 32768..32775: register `w - 32768`. -/
  | reg (i : RegIdx)
  /-- 32776..65535: "invalid and never produced by a well-formed program"; the word is kept, since a fault reports it. -/
  | invalid (w : Word)
deriving DecidableEq, Repr

/-- The kind an opcode gives an operand position (R75): W resolves by `lvalue`, R by `rvalue`. -/
inductive OperandKind where
  | write
  | read
deriving DecidableEq, Repr

/-- How an instruction sets the next pc (R81). SKIP1 belongs to unknown opcodes, which are no instruction. -/
inductive PcPolicy where
  | seq
  | halt
  | jump
  | condNz
  | condZ
  | call
  | ret
deriving DecidableEq, Repr

/-- The 22 instructions, operands in the order a, b, c of R9, one constructor per row of spec/opcode_table.json. -/
inductive Instr where
  | halt
  | set (a b : Operand)
  | push (a : Operand)
  | pop (a : Operand)
  | eq (a b c : Operand)
  | gt (a b c : Operand)
  | jmp (a : Operand)
  | jt (a b : Operand)
  | jf (a b : Operand)
  | add (a b c : Operand)
  | mult (a b c : Operand)
  | mod (a b c : Operand)
  | and (a b c : Operand)
  | or (a b c : Operand)
  | not (a b : Operand)
  | rmem (a b : Operand)
  | wmem (a b : Operand)
  | call (a : Operand)
  | ret
  | out (a : Operand)
  | in_ (a : Operand)
  | noop
deriving DecidableEq, Repr

/-- An instruction's operands in order, each with its kind (R77, column "kinds"). -/
def Instr.operands : Instr → List (OperandKind × Operand)
  | .halt => []
  | .set a b => [(.write, a), (.read, b)]
  | .push a => [(.read, a)]
  | .pop a => [(.write, a)]
  | .eq a b c => [(.write, a), (.read, b), (.read, c)]
  | .gt a b c => [(.write, a), (.read, b), (.read, c)]
  | .jmp a => [(.read, a)]
  | .jt a b => [(.read, a), (.read, b)]
  | .jf a b => [(.read, a), (.read, b)]
  | .add a b c => [(.write, a), (.read, b), (.read, c)]
  | .mult a b c => [(.write, a), (.read, b), (.read, c)]
  | .mod a b c => [(.write, a), (.read, b), (.read, c)]
  | .and a b c => [(.write, a), (.read, b), (.read, c)]
  | .or a b c => [(.write, a), (.read, b), (.read, c)]
  | .not a b => [(.write, a), (.read, b)]
  | .rmem a b => [(.write, a), (.read, b)]
  | .wmem a b => [(.read, a), (.read, b)]
  | .call a => [(.read, a)]
  | .ret => []
  | .out a => [(.read, a)]
  | .in_ a => [(.write, a)]
  | .noop => []

end Sys2Proof
end

