-- ==== Sys2Proof/WellFormed.lean ====
section
/-! DEFINITION. Which terms of `Instr` stand for words (30_encoding.md R73), and which of those the source calls the form of a
well-formed program (R73, R75). -/

namespace Sys2Proof

/-- The operand stands for exactly one word: an `invalid` operand holds a word of the invalid class 32776..65535 (R73). -/
def Operand.wf : Operand → Bool
  | .lit _ => true
  | .reg _ => true
  | .invalid w => decide (32776 ≤ w.toNat)

/-- Every operand stands for exactly one word. -/
def Instr.wf (i : Instr) : Bool := i.operands.all fun o => o.2.wf

/-- The form the source format asks of an operand: a write operand is "always a register reference" (R75) and no operand is
invalid ("never produced by a well-formed program", R73). -/
def Operand.sourceForm : OperandKind → Operand → Bool
  | .write, .reg _ => true
  | .write, .lit _ => false
  | .write, .invalid _ => false
  | .read, .lit _ => true
  | .read, .reg _ => true
  | .read, .invalid _ => false

/-- Every operand has the form the source format asks. -/
def Instr.sourceForm (i : Instr) : Bool := i.operands.all fun o => o.2.sourceForm o.1

end Sys2Proof
end

