-- ==== Sys2Proof/Decode.lean ====
section
/-! DEFINITION. From words to instructions and back: 30_encoding.md R70 to R82 (formats, operand words, opcode map, dispatch ROM)
and R91 (the encoding), with the byte order of 20_memory.md R53. The decoder is total (R82) and rejects by name. -/

namespace Sys2Proof

/-! ### Bytes and words (R7 `hi:lo`, R53) -/

/-- `hi * 256 + lo`. -/
def wordOfBytes (lo hi : Byte) : Word := hi ++ lo

/-- Bits 7..0 of a word. -/
def lowByte (w : Word) : Byte := w.extractLsb' 0 8

/-- Bits 15..8 of a word. -/
def highByte (w : Word) : Byte := w.extractLsb' 8 8

/-- Words as image bytes, the low byte of each first (R53). -/
def bytesOfWords : List Word → List Byte
  | [] => []
  | w :: ws => lowByte w :: highByte w :: bytesOfWords ws

/-- Image bytes as words; a last single byte is no word. -/
def wordsOfBytes : List Byte → List Word
  | lo :: hi :: bs => wordOfBytes lo hi :: wordsOfBytes bs
  | _ => []

/-! ### Operand words (R73) -/

/-- The class of an operand word, with what the word holds. -/
def Operand.ofWord (w : Word) : Operand :=
  if w.toNat < 32768 then .lit (w.setWidth 15)
  else if w.toNat < 32776 then .reg ⟨(w.toNat - 32768) % 8, Nat.mod_lt _ (by decide)⟩
  else .invalid w

/-- `enc` of R91; an invalid operand is its own word. -/
def Operand.toWord : Operand → Word
  | .lit v => v.setWidth 16
  | .reg i => BitVec.ofNat 16 (32768 + i.val)
  | .invalid w => w

/-! ### The dispatch ROM (R80) -/

/-- A ROM entry less its `fn`: the effect is the arm of `exec` for the entry's instruction. `k` is the length of `kinds`. -/
structure RomEntry where
  mnemonic : String
  kinds : List OperandKind
  policy : PcPolicy
deriving DecidableEq, Repr

/-- The operand count k of an entry (R71, R80). -/
def RomEntry.k (e : RomEntry) : Nat := e.kinds.length

/-- The 22 entries, addressed by the opcode value (R77, R80). -/
def rom : List RomEntry := [
  ⟨"HALT", [], .halt⟩,
  ⟨"SET", [.write, .read], .seq⟩,
  ⟨"PUSH", [.read], .seq⟩,
  ⟨"POP", [.write], .seq⟩,
  ⟨"EQ", [.write, .read, .read], .seq⟩,
  ⟨"GT", [.write, .read, .read], .seq⟩,
  ⟨"JMP", [.read], .jump⟩,
  ⟨"JT", [.read, .read], .condNz⟩,
  ⟨"JF", [.read, .read], .condZ⟩,
  ⟨"ADD", [.write, .read, .read], .seq⟩,
  ⟨"MULT", [.write, .read, .read], .seq⟩] ++ [
  ⟨"MOD", [.write, .read, .read], .seq⟩,
  ⟨"AND", [.write, .read, .read], .seq⟩,
  ⟨"OR", [.write, .read, .read], .seq⟩,
  ⟨"NOT", [.write, .read], .seq⟩,
  ⟨"RMEM", [.write, .read], .seq⟩,
  ⟨"WMEM", [.read, .read], .seq⟩,
  ⟨"CALL", [.read], .call⟩,
  ⟨"RET", [], .ret⟩,
  ⟨"OUT", [.read], .seq⟩,
  ⟨"IN", [.write], .seq⟩,
  ⟨"NOOP", [], .seq⟩]

/-! ### The decoder -/

/-- Why words hold no instruction at their head. -/
inductive DecodeError where
  /-- There is no opcode word. -/
  | noOpcodeWord
  /-- The opcode word is above 21 (R78): skipped with a diagnostic, not a fault. -/
  | unknownOpcode (op : Word)
  /-- The j-th operand word is the first that is missing (40_execution_engine.md R103). -/
  | truncated (j : Nat)
deriving DecidableEq, Repr

/-- An instruction and the words after it, or the reason there is none. -/
abbrev Decoded := Except DecodeError (Instr × List Word)

/-- Format F0 (R71). -/
def decodeF0 (i : Instr) (rest : List Word) : Decoded := .ok (i, rest)

/-- Format F1 (R71). -/
def decodeF1 (mk : Operand → Instr) : List Word → Decoded
  | [] => .error (.truncated 1)
  | a :: rest => .ok (mk (.ofWord a), rest)

/-- Format F2 (R71). -/
def decodeF2 (mk : Operand → Operand → Instr) : List Word → Decoded
  | [] => .error (.truncated 1)
  | [_] => .error (.truncated 2)
  | a :: b :: rest => .ok (mk (.ofWord a) (.ofWord b), rest)

/-- Format F3 (R71). -/
def decodeF3 (mk : Operand → Operand → Operand → Instr) : List Word → Decoded
  | [] => .error (.truncated 1)
  | [_] => .error (.truncated 2)
  | [_, _] => .error (.truncated 3)
  | a :: b :: c :: rest => .ok (mk (.ofWord a) (.ofWord b) (.ofWord c), rest)

/-- The instruction at the head of a word sequence: selected by the exact value of the opcode word (R72, R77). -/
def decodeWords : List Word → Decoded
  | [] => .error .noOpcodeWord
  | op :: rest =>
    match op.toNat with
    | 0 => decodeF0 .halt rest
    | 1 => decodeF2 .set rest
    | 2 => decodeF1 .push rest
    | 3 => decodeF1 .pop rest
    | 4 => decodeF3 .eq rest
    | 5 => decodeF3 .gt rest
    | 6 => decodeF1 .jmp rest
    | 7 => decodeF2 .jt rest
    | 8 => decodeF2 .jf rest
    | 9 => decodeF3 .add rest
    | 10 => decodeF3 .mult rest
    | 11 => decodeF3 .mod rest
    | 12 => decodeF3 .and rest
    | 13 => decodeF3 .or rest
    | 14 => decodeF2 .not rest
    | 15 => decodeF2 .rmem rest
    | 16 => decodeF2 .wmem rest
    | 17 => decodeF1 .call rest
    | 18 => decodeF0 .ret rest
    | 19 => decodeF1 .out rest
    | 20 => decodeF1 .in_ rest
    | 21 => decodeF0 .noop rest
    | _ => .error (.unknownOpcode op)

/-- The decoder on image bytes: total on any bytes. -/
def decode (bs : List Byte) : Decoded := decodeWords (wordsOfBytes bs)

/-! ### The encoder (R77, R91) -/

/-- The opcode of an instruction: the row of R77. -/
def Instr.opcode : Instr → Word
  | .halt => 0
  | .set _ _ => 1
  | .push _ => 2
  | .pop _ => 3
  | .eq _ _ _ => 4
  | .gt _ _ _ => 5
  | .jmp _ => 6
  | .jt _ _ => 7
  | .jf _ _ => 8
  | .add _ _ _ => 9
  | .mult _ _ _ => 10
  | .mod _ _ _ => 11
  | .and _ _ _ => 12
  | .or _ _ _ => 13
  | .not _ _ => 14
  | .rmem _ _ => 15
  | .wmem _ _ => 16
  | .call _ => 17
  | .ret => 18
  | .out _ => 19
  | .in_ _ => 20
  | .noop => 21

/-- The word sequence of an instruction: opcode, enc(a), enc(b), enc(c) (R91). -/
def encode (i : Instr) : List Word := i.opcode :: i.operands.map fun o => o.2.toWord

/-- The same as image bytes (R91, R53). -/
def encodeBytes (i : Instr) : List Byte := bytesOfWords (encode i)

/-! ### The opcode table's numbering -/

/-- The longest instruction has 4 words (R70, R71). -/
def maxInstrWords : Nat := 4

/-- The four words of an instruction whose bits are `w`, bit 0 the least significant bit of the first word; bits from `nbits` up are 0. -/
def tableWords (nbits w : Nat) : List Word :=
  (List.range maxInstrWords).map fun j => BitVec.ofNat 16 ((w % 2 ^ nbits) >>> (16 * j))

/-- The instruction the decoder reads from the table's bits, laid out as image bytes. -/
def decodeTableWord (nbits w : Nat) : Option Instr :=
  match decode (bytesOfWords (tableWords nbits w)) with
  | .ok (i, _) => some i
  | .error _ => none

end Sys2Proof
end

