-- ==== Sys2Proof/Config.lean ====
section
/-! DEFINITION. What an implementation of the CORE fixes and the spec leaves as a parameter (00_scope.md R6). The values a run
from reset takes are in Machine/Defaults.lean. -/

namespace Sys2Proof

/-- The parameters R6 calls OPEN, and the one it gives a default. `none` is the admitted value `unbounded`.
The model takes them as an argument: State carries them and no step changes them. -/
structure Params where
  /-- STACK_CAPACITY (10_state.md R28, decision D10). -/
  stackCapacity : Option Nat
  /-- INPUT_LINE_MAX (48_io.md R214, decision D12). -/
  inputLineMax : Option Nat
  /-- LINE_TERMINATOR (48_io.md R213, decision D11). -/
  lineTerminator : Word
deriving DecidableEq, Repr

end Sys2Proof
end

