-- ==== Sys2Proof/Machine/Defaults.lean ====
section
/-! DEFINITION. The fixed numbers of 00_scope.md R6 and the values the parameters take in `State.reset`. -/

namespace Sys2Proof.Machine

/-- MEM_MAX: no image of more words is loaded (R6, decision D2). -/
def memMax : Nat := 32768

/-- MODULUS of the arithmetic (R6). -/
def modulus : Nat := 32768

/-- RESET_PC (R6, R272, decision D1). -/
def resetPc : Word := 0

/-- What a byte of memory that no entry lists reads as: DESIGN CHOICE, unsafe (log 2). -/
def unlistedByte : Byte := 0

/-- The parameters of a run from `State.reset`: both bounds `unbounded`, "the source's behaviour" (R28; DESIGN CHOICE, unsafe,
log 3 and log 4), and LINE_TERMINATOR = 10 (R213; PRESUMED, unsafe, log 5). -/
def defaultParams : Params := ⟨none, none, 10⟩

end Sys2Proof.Machine
end

