-- ==== Sys2Proof/Machine/State.lean ====
section
/-! DEFINITION. The state of the CORE: 10_state.md R20 to R36, with the I/O trace of R46, as plain data; the reasons a step stops;
and the state right after reset (70_reset_and_hazards.md R270). -/

namespace Sys2Proof.Machine

/-- Memory as the bytes of the image, word i being bytes 2i and 2i+1 (20_memory.md R52; log 1): addresses strictly rising, no
entry equal to `unlistedByte`. -/
abbrev Memory := List Host.Cell

/-- RUN_STATE (R32). -/
inductive RunState where
  | load
  | running
  | waitInput
  | halted
  | faulted
deriving DecidableEq, Repr

/-- HALT_CAUSE (R33, R232). -/
inductive HaltCause where
  | none
  | haltOpcode
  | endOfMemory
deriving DecidableEq, Repr

/-- FAULT_CAUSE (R35, 60_exceptions.md R231). -/
inductive FaultCause where
  | none
  | malformedImage
  | stackUnderflow
  | memoryRange
  | truncatedInstruction
  | invalidOperand
  | invalidRegister
  | divideByZero
  | wordRange
  | stackOverflow
  | inputOverflow
deriving DecidableEq, Repr

/-- An event of the ordered I/O trace (R43, R44, R42, R46). -/
inductive IoEvent where
  | out (c : Value)
  | lineRequest
  | diag (p w : Word)
deriving DecidableEq, Repr

/-- What the host does at its turn between two instructions (R40 to R42, R47). The model's own form of the host's free input (log 6). -/
inductive HostEvent where
  /-- RESET is asserted (R40). -/
  | reset
  /-- The image is presented (R41). -/
  | load (image : List Byte)
  /-- The event `line(s)` occurs now, whatever RUN_STATE is (R42). -/
  | line (codes : List Word)
  /-- The host holds this line until the CORE is in WAIT_INPUT, then answers with it (R42, R47). -/
  | answer (codes : List Word)
  /-- The host does nothing for one turn. -/
  | quiet
deriving DecidableEq, Repr

/-- The state of the machine. -/
structure State where
  /-- r0..r7 (R20). -/
  regs : Vector Value 8
  /-- The program counter, a word index (R24). -/
  pc : Word
  /-- The stack, top first (R28). -/
  stack : List Word
  /-- The input queue, front first (R30). -/
  inputQueue : List Word
  /-- The word memory (R31, R50). -/
  mem : Memory
  /-- MEM_LEN, the number N of words (R36). -/
  memLen : Word
  /-- RUN_STATE (R32). -/
  runState : RunState
  /-- HALT_CAUSE (R33). -/
  haltCause : HaltCause
  /-- FAULT_CAUSE (R35). -/
  faultCause : FaultCause
  /-- FAULT_PC (R35). -/
  faultPc : Word
  /-- FAULT_INFO (R35). -/
  faultInfo : Word
  /-- The ordered I/O trace, oldest event first (R46). -/
  trace : List IoEvent
  /-- The parameters of the run (R6): the model's own field, never changed (log 3, 4, 5). -/
  params : Params
  /-- What the host does next: the model's own field (log 6). -/
  hostEvents : List HostEvent
deriving DecidableEq, Repr

/-- The reset values of R270 with given parameters and host input, neither of which is state of the CORE. -/
def State.resetWith (params : Params) (hostEvents : List HostEvent) : State where
  regs := Vector.replicate 8 0
  pc := resetPc
  stack := []
  inputQueue := []
  mem := []
  memLen := 0
  runState := .load
  haltCause := .none
  faultCause := .none
  faultPc := 0
  faultInfo := 0
  trace := []
  params := params
  hostEvents := hostEvents

/-- The machine right after reset (R270): in LOAD, with no image presented yet. -/
def State.reset : State := State.resetWith defaultParams []

/-- Why `step` answers no next state. A fault of the SPEC (R231) is none of these: it is a next state in FAULTED (R236). Each is a
place where R100 and R116 give the CORE no step; each is raised by the engine, and each is safe (log 8, 9, 15). -/
inductive Fault where
  /-- In LOAD, and the host presents no image (R41, R271). Raised by `coreStep`. Safe. -/
  | noImagePresented
  /-- In WAIT_INPUT, and no line ever arrives (R215; 93_implementation_defined.md: stuck, not final). Raised by `coreStep`. Safe. -/
  | noLineArrives
  /-- In HALTED, which has no step (R100, R238). Raised by `coreStep`. Safe. -/
  | isHalted
  /-- In FAULTED, which has no step (R100, R238). Raised by `coreStep`. Safe. -/
  | isFaulted
  /-- The host presents an image outside LOAD, where R41 gives it no such input. Raised by `hostLoad`. Safe. -/
  | imageOutsideLoad
  /-- A line arrives in WAIT_INPUT with no IN at `pc`, which no run reaches (R215). Raised by `lineArrives`. Safe. -/
  | waitingAtNoIn
deriving DecidableEq, Repr

/-- Why an instruction has no meaning. -/
inductive Refusal where
  /-- The instruction of this mnemonic has no meaning yet. Raised by an arm of `exec` only. Safe. -/
  | notModelled (mnemonic : String)
deriving DecidableEq, Repr

/-- The three outcomes of a step on this machine. -/
abbrev Result := Host.Outcome State Fault Refusal

end Sys2Proof.Machine
end

