-- ==== Sys2Proof/Machine/Ops.lean ====
section
/-! DEFINITION. The named operations over memory, registers, stack, queue and trace (00_scope.md R8), fault entry
(60_exceptions.md R236), the halt (10_state.md R34) and reset (10_state.md R40). -/

namespace Sys2Proof.Machine

/-! ### Memory: bytes in canonical form, words over them -/

/-- The byte at an image byte index. -/
def Memory.readByte : Memory → Nat → Byte
  | [], _ => unlistedByte
  | c :: m, a => if c.1 = a then c.2 else Memory.readByte m a

/-- The memory without an entry for `a`. -/
def Memory.erase (m : Memory) (a : Nat) : Memory := m.filter fun c => c.1 != a

/-- The memory with an entry for `a` put before the first higher address. -/
def Memory.insert : Memory → Nat → Byte → Memory
  | [], a, v => [(a, v)]
  | c :: m, a, v => if a < c.1 then (a, v) :: c :: m else c :: Memory.insert m a v

/-- Write one byte; writing what an unlisted address reads as removes the entry. -/
def Memory.writeByte (m : Memory) (a : Nat) (v : Byte) : Memory :=
  if v = unlistedByte then m.erase a else (m.erase a).insert a v

/-- Canonical form: addresses strictly rising, no entry equal to what an unlisted address reads as. -/
def Memory.wf : Memory → Bool
  | [] => true
  | c :: m => c.2 != unlistedByte && m.all (fun d => decide (c.1 < d.1)) && Memory.wf m

/-- `MemRead(addr, 1)`: the word at a word address (R8, R54; byte order R53). -/
def Memory.readWord (m : Memory) (addr : Nat) : Word :=
  wordOfBytes (m.readByte (2 * addr)) (m.readByte (2 * addr + 1))

/-- `MemWrite(addr, 1, w)`: write the word at a word address (R8, R54; byte order R53). -/
def Memory.writeWord (m : Memory) (addr : Nat) (w : Word) : Memory :=
  (m.writeByte (2 * addr) (lowByte w)).writeByte (2 * addr + 1) (highByte w)

/-- The memory that holds the given bytes from byte index `start` on (R51, R52). -/
def Memory.ofBytes (start : Nat) : List Byte → Memory
  | [] => []
  | b :: bs => if b = unlistedByte then Memory.ofBytes (start + 1) bs else (start, b) :: Memory.ofBytes (start + 1) bs

/-- Write consecutive words from a word address on. -/
def Memory.writeWords (m : Memory) (addr : Nat) : List Word → Memory
  | [] => m
  | w :: ws => (m.writeWord addr w).writeWords (addr + 1) ws

/-! ### Registers -/

/-- `x[i]` (R8). -/
def State.reg (s : State) (i : RegIdx) : Value := s.regs[i]

/-- `x[i] <- v` (R8). -/
def State.setReg (s : State) (i : RegIdx) (v : Value) : State := { s with regs := s.regs.set i v }

/-! ### The other updates: one field each -/

/-- `pc <- target` (R8). -/
def State.setPc (s : State) (target : Word) : State := { s with pc := target }

/-- `pc <- p + width`: the SEQ policy (30_encoding.md R81). On a `pc` no run reaches (above 65531) this wraps (log 18). -/
def State.advance (s : State) (width : Word) : State := s.setPc (s.pc + width)

/-- Replace the stack (R28). -/
def State.setStack (s : State) (st : List Word) : State := { s with stack := st }

/-- `push(v)` (R8). -/
def State.push (s : State) (v : Word) : State := s.setStack (v :: s.stack)

/-- The stack holds STACK_CAPACITY words (R29); never, when the capacity is `unbounded`. -/
def State.stackFull (s : State) : Bool := s.params.stackCapacity == some s.stack.length

/-- Replace the input queue (R30). -/
def State.setQueue (s : State) (q : List Word) : State := { s with inputQueue := q }

/-- Replace the memory (R31). -/
def State.setMem (s : State) (m : Memory) : State := { s with mem := m }

/-- Append an event to the ordered I/O trace (R46). -/
def State.emit (s : State) (e : IoEvent) : State := { s with trace := s.trace ++ [e] }

/-- Set RUN_STATE alone (R32). -/
def State.setRunState (s : State) (r : RunState) : State := { s with runState := r }

/-- Set what the host does next: the model's own field. -/
def State.setHost (s : State) (h : List HostEvent) : State := { s with hostEvents := h }

/-- The word address exists: it is below N (R31, R56). -/
def State.inMemory (s : State) (addr : Nat) : Bool := decide (addr < s.memLen.toNat)

/-! ### Halt, fault entry, reset -/

/-- `halt(cause)` (R34). -/
def State.halt (s : State) (cause : HaltCause) : State := { s with haltCause := cause, runState := .halted }

/-- Fault entry for an instruction at `p` (R236): the three fault registers and RUN_STATE, nothing else. -/
def State.raiseAt (s : State) (p : Word) (cause : FaultCause) (info : Word) : State :=
  { s with faultCause := cause, faultPc := p, faultInfo := info, runState := .faulted }

/-- `raise <Fault>(info)` (R8, R236): the instruction at `pc` faults, and `pc` keeps its address. -/
def State.raise (s : State) (cause : FaultCause) (info : Word) : State := s.raiseAt s.pc cause info

/-- RESET (R40, R238): the one way out of HALTED and FAULTED; nothing of the CORE survives (log 20). -/
def State.resetRun (s : State) : State := State.resetWith s.params s.hostEvents

/-- A word bound for a register: above 32767 it is the fault WORD_RANGE, else the register takes it (10_state.md R23, decision D9). -/
def withRegisterValue (w : Word) (s : State) (k : Value → Result) : Result :=
  if 32767 < w.toNat then .next (s.raise .wordRange w) else k (w.setWidth 15)

end Sys2Proof.Machine
end

