-- ==== Sys2Proof/Machine/Operands.lean ====
section
/-! DEFINITION. Operand resolution: 40_execution_engine.md R104 (`rvalue`), R105 (`lvalue`), R106 (order a, b, c, before any effect). -/

namespace Sys2Proof.Machine

/-- What a resolution that faults reports: the cause and FAULT_INFO. -/
abbrev Raised := FaultCause × Word

/-- `rvalue` (R104). -/
def rvalue (o : Operand) (s : State) : Except Raised Value :=
  match o with
  | .lit v => .ok v
  | .reg i => .ok (s.reg i)
  | .invalid w => .error (.invalidOperand, w)

/-- `lvalue` (R105): the index is the word modulo 32768, and an index above 7 names no register. A register reference 32768 + i has
index i; a literal is its own index. -/
def lvalue (o : Operand) : Except Raised RegIdx :=
  if h : o.toWord.toNat % 32768 < 8 then .ok ⟨o.toWord.toNat % 32768, h⟩ else .error (.invalidRegister, o.toWord)

/-- Resolve a read operand and go on with its value, or enter its fault (R104, R106). -/
def withRead (o : Operand) (s : State) (k : Value → Result) : Result :=
  match rvalue o s with
  | .ok v => k v
  | .error (cause, info) => .next (s.raise cause info)

/-- Resolve a write operand and go on with its register, or enter its fault (R105, R106). -/
def withWrite (o : Operand) (s : State) (k : RegIdx → Result) : Result :=
  match lvalue o with
  | .ok i => k i
  | .error (cause, info) => .next (s.raise cause info)

/-- Two read operands, in order. -/
def withReads2 (a b : Operand) (s : State) (k : Value → Value → Result) : Result :=
  withRead a s fun A => withRead b s fun B => k A B

/-- The shape of SET and NOT: reg[a] := f(b), pc + 3. -/
def unaryToReg (f : Value → Value) (a b : Operand) (s : State) : Result :=
  withWrite a s fun A => withRead b s fun B => .next ((s.setReg A (f B)).advance 3)

/-- The shape of the comparisons and the two-operand ALU instructions: reg[a] := f(b, c), pc + 4. -/
def binaryToReg (f : Value → Value → Value) (a b c : Operand) (s : State) : Result :=
  withWrite a s fun A => withReads2 b c s fun B C => .next ((s.setReg A (f B C)).advance 4)

end Sys2Proof.Machine
end

