-- ==== Sys2Proof/Machine/Alu.lean ====
section
/-! DEFINITION. 45_alu.md: ADD, MULT, MOD, AND, OR, NOT. Sums and products are computed exactly and reduced modulo 32768 (R176). -/

namespace Sys2Proof.Machine

/-- `(B + C) mod 32768` (R170). -/
def aluAdd (B C : Value) : Value := BitVec.ofNat 15 ((B.toNat + C.toNat) % modulus)

/-- `(B * C) mod 32768` (R171). -/
def aluMult (B C : Value) : Value := BitVec.ofNat 15 ((B.toNat * C.toNat) % modulus)

/-- `B mod C`, the unsigned remainder, for a non-zero C (R172). -/
def aluMod (B C : Value) : Value := BitVec.ofNat 15 (B.toNat % C.toNat)

/-- `32767 - B` (R175). -/
def aluNot (B : Value) : Value := BitVec.ofNat 15 (32767 - B.toNat)

/-- ADD (R170). -/
def execAdd (a b c : Operand) (s : State) : Result := binaryToReg aluAdd a b c s

/-- MULT (R171). -/
def execMult (a b c : Operand) (s : State) : Result := binaryToReg aluMult a b c s

/-- MOD (R172): a zero divisor is the fault DIVIDE_BY_ZERO, reporting the dividend (decision D8). -/
def execMod (a b c : Operand) (s : State) : Result :=
  withWrite a s fun A => withReads2 b c s fun B C =>
    if C.toNat = 0 then .next (s.raise .divideByZero (B.setWidth 16))
    else .next ((s.setReg A (aluMod B C)).advance 4)

/-- AND (R173): `B & C`. -/
def execAnd (a b c : Operand) (s : State) : Result := binaryToReg (fun B C => B &&& C) a b c s

/-- OR (R174): `B | C`. -/
def execOr (a b c : Operand) (s : State) : Result := binaryToReg (fun B C => B ||| C) a b c s

/-- NOT (R175): `32767 - B; pc <- p + 3`. -/
def execNot (a b : Operand) (s : State) : Result := unaryToReg aluNot a b s

end Sys2Proof.Machine
end

