-- ==== Sys2Proof/Machine/Flags.lean ====
section
/-! DEFINITION. 10_state.md R27: there are no flags. Comparisons write 0 or 1 into a register, and the conditional jumps test a
value for zero; those two conversions are here. -/

namespace Sys2Proof.Machine

/-- The value a comparison writes: 1 or 0 (R27). -/
def truthValue (b : Bool) : Value := if b then 1 else 0

/-- What a conditional jump tests: every non-zero value is true (R27, 44_branch.md R161, R162). -/
def isNonZero (v : Value) : Bool := v != 0

end Sys2Proof.Machine
end

