-- ==== Sys2Proof/Machine/Branch.lean ====
section
/-! DEFINITION. 44_branch.md: JMP, JT, JF. Targets are absolute word addresses; one not below N is legal to set. -/

namespace Sys2Proof.Machine

/-- JMP (R160): `pc <- A`. -/
def execJmp (a : Operand) (s : State) : Result :=
  withRead a s fun A => .next (s.setPc (A.setWidth 16))

/-- Go to `target` when `taken`, else past the 3 words (R110, R282). -/
def branchIf (taken : Bool) (target : Value) (s : State) : State :=
  if taken then s.setPc (target.setWidth 16) else s.advance 3

/-- JT (R161): both operands are resolved even when the jump is not taken (decision D14). -/
def execJt (a b : Operand) (s : State) : Result :=
  withReads2 a b s fun A B => .next (branchIf (isNonZero A) B s)

/-- JF (R162): both operands are resolved even when the jump is not taken (decision D14). -/
def execJf (a b : Operand) (s : State) : Result :=
  withReads2 a b s fun A B => .next (branchIf (!isNonZero A) B s)

end Sys2Proof.Machine
end

