-- ==== Sys2Proof/Machine/CallReturn.lean ====
section
/-! DEFINITION. 47_call_return.md: CALL, RET. Return addresses live on the one stack. -/

namespace Sys2Proof.Machine

/-- CALL (R200): pushes p + 2, the address after its one operand, then jumps. -/
def execCall (a : Operand) (s : State) : Result :=
  withRead a s fun A =>
    if s.stackFull then .next (s.raise .stackOverflow (s.pc + 2))
    else .next ((s.push (s.pc + 2)).setPc (A.setWidth 16))

/-- RET (R201): pops whatever word is on top into pc; an empty stack is the fault STACK_UNDERFLOW. -/
def execRet (s : State) : Result :=
  match s.stack with
  | [] => .next (s.raise .stackUnderflow 0)
  | target :: rest => .next ((s.setStack rest).setPc target)

end Sys2Proof.Machine
end

