-- ==== Sys2Proof/Machine/Compare.lean ====
section
/-! DEFINITION. 43_compare.md: EQ, GT, unsigned on 15-bit values. -/

namespace Sys2Proof.Machine

/-- EQ (R150): `x[A] <- (B == C) ? 1 : 0; pc <- p + 4`. -/
def execEq (a b c : Operand) (s : State) : Result :=
  binaryToReg (fun B C => truthValue (B == C)) a b c s

/-- GT (R151): `x[A] <- (B > C) ? 1 : 0; pc <- p + 4`, unsigned and strict. -/
def execGt (a b c : Operand) (s : State) : Result :=
  binaryToReg (fun B C => truthValue (decide (B.toNat > C.toNat))) a b c s

end Sys2Proof.Machine
end

