-- ==== Sys2Proof/Machine/Console.lean ====
section
/-! DEFINITION. 48_io.md: OUT, IN, and the refill of the input queue by a line. -/

namespace Sys2Proof.Machine

/-- OUT (R210): appends the event `out(A)`. -/
def execOut (a : Operand) (s : State) : Result :=
  withRead a s fun A => .next ((s.emit (.out A)).advance 2)

/-- IN (R211): with an empty queue it emits `line_request` and waits, pc staying at the IN (R215); else it takes the front code. A
front code above 32767 stays in the queue and is the fault WORD_RANGE (R214). -/
def execIn (a : Operand) (s : State) : Result :=
  withWrite a s fun A =>
    match s.inputQueue with
    | [] => .next ((s.emit .lineRequest).setRunState .waitInput)
    | c :: q => withRegisterValue c s fun V => .next (((s.setQueue q).setReg A V).advance 2)

/-- The line is longer than a bounded INPUT_LINE_MAX (R214, decision D12). -/
def lineTooLong (codes : List Word) (s : State) : Bool :=
  match s.params.inputLineMax with
  | none => false
  | some n => decide (n < codes.length)

/-- Refill (R212): the queue becomes the line's codes and LINE_TERMINATOR, and RUN_STATE returns to RUNNING (R215). -/
def refill (codes : List Word) (s : State) : State :=
  (s.setQueue (codes ++ [s.params.lineTerminator])).setRunState .running

end Sys2Proof.Machine
end

