-- ==== Sys2Proof/Machine/Control.lean ====
section
/-! DEFINITION. 41_machine_control.md: HALT, NOOP and the unknown-opcode skip. -/

namespace Sys2Proof.Machine

/-- HALT (R130): `pc <- p + 1; halt(HALT_OPCODE)`. -/
def execHalt (s : State) : Result := .next ((s.advance 1).halt .haltOpcode)

/-- NOOP (R133): `pc <- p + 1`. -/
def execNoop (s : State) : Result := .next (s.advance 1)

/-- An unknown opcode (R131, R132): `emit_diag(p, op); pc <- p + 1`. -/
def skipUnknown (op : Word) (s : State) : State := (s.emit (.diag s.pc op)).advance 1

end Sys2Proof.Machine
end

