-- ==== Sys2Proof/Machine/MemoryAccess.lean ====
section
/-! DEFINITION. 46_memory_access.md: RMEM, WMEM. The effective address is the resolved operand, a word address (R192). -/

namespace Sys2Proof.Machine

/-- RMEM (R190): the address is range-checked before the word is; the word is moved as stored, with no resolution. -/
def execRmem (a b : Operand) (s : State) : Result :=
  withWrite a s fun A => withRead b s fun B =>
    if s.inMemory B.toNat then
      withRegisterValue (s.mem.readWord B.toNat) s fun V => .next ((s.setReg A V).advance 3)
    else .next (s.raise .memoryRange (B.setWidth 16))

/-- WMEM (R191): operand a is the address and b the value, both read operands. -/
def execWmem (a b : Operand) (s : State) : Result :=
  withReads2 a b s fun A B =>
    if s.inMemory A.toNat then
      .next ((s.setMem (s.mem.writeWord A.toNat (B.setWidth 16))).advance 3)
    else .next (s.raise .memoryRange (A.setWidth 16))

end Sys2Proof.Machine
end

