-- ==== Sys2Proof/Machine/MoveStack.lean ====
section
/-! DEFINITION. 42_register_stack.md: SET, PUSH, POP. -/

namespace Sys2Proof.Machine

/-- SET (R140): `x[A] <- B; pc <- p + 3`. -/
def execSet (a b : Operand) (s : State) : Result := unaryToReg (fun B => B) a b s

/-- PUSH (R141): the resolved value is pushed, never the raw operand word. -/
def execPush (a : Operand) (s : State) : Result :=
  withRead a s fun A =>
    if s.stackFull then .next (s.raise .stackOverflow (A.setWidth 16))
    else .next ((s.push (A.setWidth 16)).advance 2)

/-- POP (R142): underflow is checked before the range of the top word; a faulting POP leaves the stack as it is. -/
def execPop (a : Operand) (s : State) : Result :=
  withWrite a s fun A =>
    match s.stack with
    | [] => .next (s.raise .stackUnderflow 0)
    | v :: rest => withRegisterValue v s fun V => .next (((s.setStack rest).setReg A V).advance 2)

end Sys2Proof.Machine
end

