-- ==== Sys2Proof/Machine/Fetch.lean ====
section
/-! DEFINITION. Fetch and decode at `pc`: 40_execution_engine.md R101 to R103. Every fetch reads memory at the time of the fetch
(20_memory.md R64). -/

namespace Sys2Proof.Machine

/-- What stands at `pc`. -/
inductive Fetched where
  /-- `pc` is not below N (R101). -/
  | endOfMemory
  /-- The opcode word is above 21 (R102). -/
  | unknown (op : Word)
  /-- The first operand word at or beyond N has this address (R103). -/
  | truncated (addr : Word)
  /-- An instruction, all its operand words present. -/
  | instr (i : Instr)
deriving DecidableEq, Repr

/-- At most `n` words of memory from word address `p` on, as far as they exist (R101, R103). -/
def fetchWords (s : State) : Nat → Nat → List Word
  | 0, _ => []
  | n + 1, p => if s.inMemory p then s.mem.readWord p :: fetchWords s n (p + 1) else []

/-- What the words at `pc` decode to (R101 to R103). -/
def fetch (s : State) : Fetched :=
  match decodeWords (fetchWords s maxInstrWords s.pc.toNat) with
  | .ok (i, _) => .instr i
  | .error .noOpcodeWord => .endOfMemory
  | .error (.unknownOpcode op) => .unknown op
  | .error (.truncated j) => .truncated (BitVec.ofNat 16 (s.pc.toNat + j))

end Sys2Proof.Machine
end

