-- ==== Sys2Proof/Machine/Engine.lean ====
section
/-! DEFINITION. One step: the CORE's own (40_execution_engine.md R100, R114), or what the host does between two instructions
(10_state.md R40 to R42, 20_memory.md R51, 48_io.md R215). Each takes the instruction meanings as the argument `run`;
Machine/Step.lean gives it `exec`. -/

namespace Sys2Proof.Machine

/-- The step R114 takes on what it fetched: precedence as in 60_exceptions.md R240. -/
def runFetched (run : Instr → State → Result) (s : State) : Fetched → Result
  | .endOfMemory => .next (s.halt .endOfMemory)
  | .unknown op => .next (skipUnknown op s)
  | .truncated addr => .next (s.raise .truncatedInstruction addr)
  | .instr i => run i s

/-- The CORE's own step: taken only in RUNNING (R100). -/
def coreStep (run : Instr → State → Result) (s : State) : Result :=
  match s.runState with
  | .running => runFetched run s (fetch s)
  | .load => .fault .noImagePresented
  | .waitInput => .fault .noLineArrives
  | .halted => .fault .isHalted
  | .faulted => .fault .isFaulted

/-- `line(s)` in WAIT_INPUT (R214, R215): a line that is too long is the fault INPUT_OVERFLOW and enqueues nothing; else the queue is
refilled and the same IN, still at `pc`, completes (log 15). -/
def lineArrives (run : Instr → State → Result) (codes : List Word) (s : State) : Result :=
  if lineTooLong codes s then .next (s.raise .inputOverflow (BitVec.ofNat 16 (min codes.length 65535)))
  else
    match fetch (refill codes s) with
    | .instr (.in_ a) => run (.in_ a) (refill codes s)
    | _ => .fault .waitingAtNoIn

/-- The load of an image (R51); its fault has FAULT_PC 0 (R236). -/
def loadImage (image : List Byte) (s : State) : State :=
  if image.length = 0 then s.raiseAt 0 .malformedImage 0
  else if image.length % 2 = 1 then s.raiseAt 0 .malformedImage 1
  else if memMax < image.length / 2 then s.raiseAt 0 .malformedImage 2
  else { s with mem := Memory.ofBytes 0 image, memLen := BitVec.ofNat 16 (image.length / 2), runState := .running, pc := 0 }

/-- The host presents an image: an input of state LOAD only (R41; log 9). -/
def hostLoad (image : List Byte) (s : State) : Result :=
  match s.runState with
  | .load => .next (loadImage image s)
  | _ => .fault .imageOutsideLoad

/-- One step. The host's next event is its turn between two instructions (log 6, log 7); with none listed the CORE steps alone. -/
def engineStep (run : Instr → State → Result) (s : State) : Result :=
  match s.hostEvents with
  | [] => coreStep run s
  | .reset :: rest => .next (s.setHost rest).resetRun
  | .load image :: rest => hostLoad image (s.setHost rest)
  | .line codes :: rest =>
    if s.runState = .waitInput then lineArrives run codes (s.setHost rest) else .next (s.setHost rest)
  | .answer codes :: rest =>
    if s.runState = .waitInput then lineArrives run codes (s.setHost rest) else coreStep run s
  | .quiet :: rest =>
    if s.runState = .running then coreStep run (s.setHost rest) else .next (s.setHost rest)

/-! ### Placing an instruction where the next step fetches it (log 11, log 12) -/

/-- Where an instruction of the longest form fits: at `pc`, or at 0 where it would run past MEM_MAX. -/
def fetchPlace (s : State) : Nat := if s.pc.toNat + maxInstrWords ≤ memMax then s.pc.toNat else 0

/-- The host's turn would come before the CORE's step: every event but a held answer. -/
def HostEvent.takesTurn : HostEvent → Bool
  | .answer _ => false
  | .reset => true
  | .load _ => true
  | .line _ => true
  | .quiet => true

/-- The words of an instruction in memory at `fetchPlace`, N raised to hold them, RUNNING, and no host event before the step. -/
def placeForFetch (s : State) (ws : List Word) : State :=
  { s with
    mem := s.mem.writeWords (fetchPlace s) ws
    memLen := BitVec.ofNat 16 (max s.memLen.toNat (fetchPlace s + maxInstrWords))
    pc := BitVec.ofNat 16 (fetchPlace s)
    runState := .running
    hostEvents := s.hostEvents.dropWhile HostEvent.takesTurn }

end Sys2Proof.Machine
end

