-- ==== Sys2Proof/Machine/Step.lean ====
section
/-! DEFINITION. The step function: Machine/Engine.lean's step over `exec`, and the placing of an instruction for the next step. -/

namespace Sys2Proof.Machine

/-- One architectural step (40_execution_engine.md R100, R114), or one event of the host between two instructions (log 7). -/
def step (s : State) : Host.Outcome State Fault Refusal := engineStep exec s

/-- `s` with the instruction whose bits are `w` where the next step fetches (log 11, log 12). -/
def State.withFetchWord (s : State) (nbits w : Nat) : State := placeForFetch s (tableWords nbits w)

end Sys2Proof.Machine
end

