-- ==== Sys2Proof/Machine/Status.lean ====
section
/-! DEFINITION. What the host can read: 10_state.md R45 (STATUS), with the numeric codes of R32, R33 and 60_exceptions.md R231. -/

namespace Sys2Proof.Machine

/-- RUN_STATE as its 3 bits (R32). -/
def RunState.code : RunState → BitVec 3
  | .load => 0
  | .running => 1
  | .waitInput => 2
  | .halted => 3
  | .faulted => 4

/-- HALT_CAUSE as its 2 bits (R33). -/
def HaltCause.code : HaltCause → BitVec 2
  | .none => 0
  | .haltOpcode => 1
  | .endOfMemory => 2

/-- FAULT_CAUSE as its 4 bits (R231). -/
def FaultCause.code : FaultCause → BitVec 4
  | .none => 0
  | .malformedImage => 1
  | .stackUnderflow => 2
  | .memoryRange => 3
  | .truncatedInstruction => 4
  | .invalidOperand => 5
  | .invalidRegister => 6
  | .divideByZero => 7
  | .wordRange => 8
  | .stackOverflow => 9
  | .inputOverflow => 10

/-- The status registers, readable at any time (R45). -/
structure Status where
  runState : BitVec 3
  haltCause : BitVec 2
  faultCause : BitVec 4
  faultPc : Word
  faultInfo : Word
  memLen : Word
deriving DecidableEq, Repr

/-- The STATUS outputs (R45). -/
def hostStatus (s : State) : Status :=
  ⟨s.runState.code, s.haltCause.code, s.faultCause.code, s.faultPc, s.faultInfo, s.memLen⟩

/-- What the end-state observation shows (R45). -/
structure EndState where
  regs : Vector Value 8
  pc : Word
  words : List Word
  stack : List Word
deriving DecidableEq, Repr

/-- The registers, pc, the N memory words and the stack, readable when RUN_STATE is HALTED or FAULTED (R45). -/
def endState (s : State) : Option EndState :=
  if s.runState = .halted ∨ s.runState = .faulted then
    some ⟨s.regs, s.pc, (List.range s.memLen.toNat).map s.mem.readWord, s.stack⟩
  else none

end Sys2Proof.Machine
end

