-- ==== Sys2Proof/Safety.lean ====
section
/-! DEFINITION. The terms the claims use: what an instruction leaves unchanged, what entering a fault looks like, which operand
fault comes first, and the invariant of a run. -/

namespace Sys2Proof.Machine

/-! ### Frames -/

/-- One piece of the state, for saying what an instruction may change. Memory is named byte by byte. -/
inductive Part where
  | reg (i : RegIdx)
  | pc
  | stack
  | inputQueue
  | byte (a : Nat)
  | memLen
  | runState
  | haltCause
  | faultCause
  | faultPc
  | faultInfo
  | trace
  | params
  | hostEvents
deriving DecidableEq, Repr

/-- The piece is the same in both states; a byte of memory, as it reads. -/
def Part.same (s t : State) : Part → Prop
  | .reg i => t.reg i = s.reg i
  | .pc => t.pc = s.pc
  | .stack => t.stack = s.stack
  | .inputQueue => t.inputQueue = s.inputQueue
  | .byte a => t.mem.readByte a = s.mem.readByte a
  | .memLen => t.memLen = s.memLen
  | .runState => t.runState = s.runState
  | .haltCause => t.haltCause = s.haltCause
  | .faultCause => t.faultCause = s.faultCause
  | .faultPc => t.faultPc = s.faultPc
  | .faultInfo => t.faultInfo = s.faultInfo
  | .trace => t.trace = s.trace
  | .params => t.params = s.params
  | .hostEvents => t.hostEvents = s.hostEvents

/-- From `s` to `t` every piece is unchanged but the listed ones. -/
def FrameBut (changed : List Part) (s t : State) : Prop := ∀ part, part ∉ changed → part.same s t

/-- The instruction at `p` entered FAULTED with this cause and info, and nothing else changed (60_exceptions.md R236). -/
def FaultEntry (s t : State) (p : Word) (cause : FaultCause) (info : Word) : Prop :=
  t.runState = .faulted ∧ t.faultCause = cause ∧ t.faultPc = p ∧ t.faultInfo = info ∧
    FrameBut [.runState, .faultCause, .faultPc, .faultInfo] s t

/-- The instruction completes in a state that enters FAULTED with this cause and info. -/
def FaultsWith (i : Instr) (s : State) (cause : FaultCause) (info : Word) : Prop :=
  ∃ t, exec i s = .next t ∧ FaultEntry s t s.pc cause info

/-- The same without the frame: the instruction ends in FAULTED with this cause and info. -/
def EntersFault (i : Instr) (s : State) (cause : FaultCause) (info : Word) : Prop :=
  ∃ t, exec i s = .next t ∧ t.runState = .faulted ∧ t.faultCause = cause ∧ t.faultInfo = info

/-! ### The CORE's turn -/

/-- The next step of `s` is the CORE's own, taken from `u`: RUNNING, and the host lists nothing, holds an answer for a later IN, or lets
this turn pass, its `quiet` entry being dropped (log 6, log 7). -/
def CoreTurn (s u : State) : Prop :=
  s.runState = .running ∧
    ((s.hostEvents = [] ∧ u = s) ∨ (∃ codes rest, s.hostEvents = .answer codes :: rest ∧ u = s) ∨
      ∃ rest, s.hostEvents = .quiet :: rest ∧ u = s.setHost rest)

/-! ### Operand faults in order -/

/-- What resolving one operand reports, when it faults: by `lvalue` for kind W, by `rvalue` for kind R (30_encoding.md R75). -/
def operandFault (s : State) : OperandKind × Operand → Option Raised
  | (.write, o) => match lvalue o with
    | .ok _ => none
    | .error e => some e
  | (.read, o) => match rvalue o s with
    | .ok _ => none
    | .error e => some e

/-- The fault of the first operand, in the order a, b, c, that has one (40_execution_engine.md R106). -/
def firstOperandFault (i : Instr) (s : State) : Option Raised := i.operands.findSome? (operandFault s)

/-- If an operand faults, the instruction ends in FAULTED with the cause of the first one that does. -/
def OperandFaultsFirst (i : Instr) (s : State) : Prop :=
  ∀ e, firstOperandFault i s = some e → ∃ t, exec i s = .next t ∧ t.runState = .faulted ∧ t.faultCause = e.1

/-- The words are the whole encoding of the instruction, and no shorter beginning of them is an instruction: the first missing
operand word is reported, and a RUNNING machine whose memory ends within them faults TRUNCATED_INSTRUCTION (30_encoding.md R70,
40_execution_engine.md R103). -/
def EncodedAs (i : Instr) (ws : List Word) : Prop :=
  decodeWords ws = .ok (i, []) ∧ (∀ n, 0 < n → n < ws.length → decodeWords (ws.take n) = .error (.truncated n)) ∧
  ∀ s u : State, CoreTurn s u → ws[0]? = some (s.mem.readWord s.pc.toNat) →
    s.pc.toNat < s.memLen.toNat → s.memLen.toNat < s.pc.toNat + ws.length →
    ∃ t, step s = .next t ∧ t.runState = .faulted ∧ t.faultCause = .truncatedInstruction

/-- The causes an instruction can raise once its words are fetched (60_exceptions.md R233). -/
def raisable : Instr → List FaultCause
  | .halt => []
  | .noop => []
  | .ret => [.stackUnderflow]
  | .set _ _ => [.invalidRegister, .invalidOperand]
  | .eq _ _ _ => [.invalidRegister, .invalidOperand]
  | .gt _ _ _ => [.invalidRegister, .invalidOperand]
  | .add _ _ _ => [.invalidRegister, .invalidOperand]
  | .mult _ _ _ => [.invalidRegister, .invalidOperand]
  | .and _ _ _ => [.invalidRegister, .invalidOperand]
  | .or _ _ _ => [.invalidRegister, .invalidOperand]
  | .not _ _ => [.invalidRegister, .invalidOperand]
  | .mod _ _ _ => [.invalidRegister, .invalidOperand, .divideByZero]
  | .push _ => [.invalidOperand, .stackOverflow]
  | .pop _ => [.invalidRegister, .stackUnderflow, .wordRange]
  | .jmp _ => [.invalidOperand]
  | .jt _ _ => [.invalidOperand]
  | .jf _ _ => [.invalidOperand]
  | .out _ => [.invalidOperand]
  | .rmem _ _ => [.invalidRegister, .invalidOperand, .memoryRange, .wordRange]
  | .wmem _ _ => [.invalidOperand, .memoryRange]
  | .call _ => [.invalidOperand, .stackOverflow]
  | .in_ _ => [.invalidRegister, .wordRange]

/-! ### Runs -/

/-- Every piece of the CORE's state is at the value of the table of 70_reset_and_hazards.md R270. -/
def AtResetValues (t : State) : Prop :=
  (∀ i, t.reg i = 0) ∧ t.stack = [] ∧ t.inputQueue = [] ∧ t.mem = [] ∧ t.memLen = 0 ∧ t.pc = 0 ∧ t.runState = .load ∧
    t.haltCause = .none ∧ t.faultCause = .none ∧ t.faultPc = 0 ∧ t.faultInfo = 0 ∧ t.trace = []

/-- The words of `i` stand in memory at `pc`, all below N (30_encoding.md R70). -/
def StandsAtPc (i : Instr) (s : State) : Prop :=
  s.pc.toNat + (encode i).length ≤ s.memLen.toNat ∧
    ∀ j w, (encode i)[j]? = some w → s.mem.readWord (s.pc.toNat + j) = w

/-- The two states agree on everything an instruction may depend on: all but HALT_CAUSE, the FAULT registers, the trace and the
host's coming events (10_state.md section 7). -/
def AgreeForPrograms (s t : State) : Prop :=
  s.regs = t.regs ∧ s.pc = t.pc ∧ s.stack = t.stack ∧ s.inputQueue = t.inputQueue ∧ s.mem = t.mem ∧
    s.memLen = t.memLen ∧ s.runState = t.runState ∧ s.params = t.params

/-- The invariant of a run (10_state.md R24 to R37). -/
structure RunInvariant (s : State) : Prop where
  /-- Memory keeps its canonical form (log 1). -/
  memCanonical : s.mem.wf = true
  /-- Nothing is stored at or beyond word N (R31): such a byte reads as an unlisted one. -/
  memInside : ∀ a, 2 * s.memLen.toNat ≤ a → s.mem.readByte a = unlistedByte
  /-- N is at most MEM_MAX (R6). -/
  memLenMax : s.memLen.toNat ≤ memMax
  /-- `pc` never passes MEM_MAX (R25, R26). -/
  pcMax : s.pc.toNat ≤ memMax
  /-- Every stack entry is in 0..MEM_MAX (R37). -/
  stackEntries : ∀ w ∈ s.stack, w.toNat ≤ memMax
  /-- A bounded stack holds at most STACK_CAPACITY words (R29). -/
  stackBound : ∀ n, s.params.stackCapacity = some n → s.stack.length ≤ n
  /-- In LOAD everything is at its reset value (R40, R270). -/
  loadIsReset : s.runState = .load → s = State.resetWith s.params s.hostEvents
  /-- HALT_CAUSE is written exactly when RUN_STATE becomes HALTED (R33). -/
  haltCauseIff : s.haltCause ≠ .none ↔ s.runState = .halted
  /-- FAULT_CAUSE is written exactly when RUN_STATE becomes FAULTED (R35). -/
  faultCauseIff : s.faultCause ≠ .none ↔ s.runState = .faulted
  /-- FAULT_PC and FAULT_INFO are 0 until then (R35). -/
  faultRegsClear : s.faultCause = .none → s.faultPc = 0 ∧ s.faultInfo = 0
  /-- WAIT_INPUT is entered only by an IN with a good operand and an empty queue, which still stands at `pc` (R215). -/
  waitingAtIn : s.runState = .waitInput →
    s.inputQueue = [] ∧ ∃ a A, fetch s = .instr (.in_ a) ∧ lvalue a = .ok A

end Sys2Proof.Machine
end

