-- ==== Sys2Proof/Certificates/Slice0/Obligations.lean ====
section
/-! DEFINITION. The statements for the provers. Each docstring names what of spec/ it formalises; a statement that rests on a
decision or an inference the spec marks as its own says which. -/

open Sys2Proof Sys2Proof.Machine

/-! ### Operand words and their resolution -/

/-- 30_encoding.md R73: the three classes of an operand word, each with the meaning the table gives. -/
def Obligations.OperandWordsFallInThreeClasses : Prop :=
  ∀ w : Word,
    (w.toNat ≤ 32767 → ∃ v, Operand.ofWord w = .lit v ∧ v.toNat = w.toNat) ∧
    (32768 ≤ w.toNat → w.toNat ≤ 32775 → ∃ i, Operand.ofWord w = .reg i ∧ i.val = w.toNat - 32768) ∧
    (32776 ≤ w.toNat → Operand.ofWord w = .invalid w)

/-- 40_execution_engine.md section 2, `rvalue`. The third clause is the spec's own decision D6. -/
def Obligations.RvalueResolvesReadOperand : Prop :=
  ∀ (w : Word) (s : State),
    (w.toNat ≤ 32767 → ∃ v, rvalue (.ofWord w) s = .ok v ∧ v.toNat = w.toNat) ∧
    (32768 ≤ w.toNat → w.toNat ≤ 32775 → ∀ i : RegIdx, i.val = w.toNat - 32768 → rvalue (.ofWord w) s = .ok (s.reg i)) ∧
    (32776 ≤ w.toNat → rvalue (.ofWord w) s = .error (.invalidOperand, w))

/-- 40_execution_engine.md section 2, `lvalue`: the index is the word modulo 32768. The second clause is the spec's own decision D7. -/
def Obligations.LvalueTakesIndexModulo32768 : Prop :=
  ∀ w : Word,
    (∀ i : RegIdx, i.val = w.toNat % 32768 → lvalue (.ofWord w) = .ok i) ∧
    (8 ≤ w.toNat % 32768 → lvalue (.ofWord w) = .error (.invalidRegister, w))

/-- 60_exceptions.md section 4, item 4, and 40_execution_engine.md section 2: of the operands in the order a, b, c the first that
faults decides the fault, and the instruction has no other effect. The spec's own decisions D13 and D14. -/
def Obligations.FirstFaultingOperandDecidesFault : Prop :=
  ∀ (i : Instr) (s : State) (e : Raised), firstOperandFault i s = some e → FaultsWith i s e.1 e.2

/-! ### Encoding and decoding -/

/-- 30_encoding.md sections 1, 2 and 4: words written out from the opcode map, and the image bytes of the example `JT r0 100` (section 6). -/
def Obligations.OpcodeMapWordsDecode : Prop :=
  decodeWords [1, 32768, 5] = .ok (.set (.reg 0) (.lit 5), []) ∧
  decodeWords [9, 32770, 32768, 32769, 19] = .ok (.add (.reg 2) (.reg 0) (.reg 1), [19]) ∧
  decodeWords [16, 20, 1234] = .ok (.wmem (.lit 20) (.lit 1234), []) ∧
  decodeWords [20, 32775] = .ok (.in_ (.reg 7), []) ∧
  decodeWords [18] = .ok (.ret, []) ∧
  decodeWords [22, 0] = .error (.unknownOpcode 22) ∧
  decode [0x07, 0x00, 0x00, 0x80, 0x64, 0x00] = .ok (.jt (.reg 0) (.lit 100), [])

/-- 30_encoding.md sections 1 to 4 and 6: for every instruction and every value of its operands, decoding its words (with any words
after them) or its image bytes gives it back. -/
def Obligations.DecodeInvertsEncode : Prop :=
  ∀ i : Instr, i.wf = true →
    (∀ rest, decodeWords (encode i ++ rest) = .ok (i, rest)) ∧ decode (encodeBytes i) = .ok (i, [])

/-- 30_encoding.md section 4: a word sequence that decodes has one reading; the decoded instruction is well-formed and encodes to the words read. -/
def Obligations.EncodeInvertsDecode : Prop :=
  ∀ (ws : List Word) (i : Instr) (rest : List Word),
    decodeWords ws = .ok (i, rest) → i.wf = true ∧ encode i ++ rest = ws

/-- 30_encoding.md sections 3 and 5: the opcode word alone gives the length. Above 21 it is unknown; else the ROM's entry gives the
operand count and kinds, and the operand words follow in order, the first missing one being reported. -/
def Obligations.OpcodeWordAloneGivesLength : Prop :=
  ∀ (op : Word) (rest : List Word),
    (21 < op.toNat → rom[op.toNat]? = none ∧ decodeWords (op :: rest) = .error (.unknownOpcode op)) ∧
    (op.toNat ≤ 21 → ∃ e, rom[op.toNat]? = some e ∧
      (rest.length < e.k → decodeWords (op :: rest) = .error (.truncated (rest.length + 1))) ∧
      (e.k ≤ rest.length → ∃ i, decodeWords (op :: rest) = .ok (i, rest.drop e.k) ∧ i.opcode = op ∧
        i.operands.map Prod.fst = e.kinds ∧ i.operands.map Prod.snd = (rest.take e.k).map Operand.ofWord))

/-! ### The step -/

/-- 40_execution_engine.md sections 1 and 5: in RUNNING, where the words of a well-formed instruction stand at pc, the step is that
instruction's effect. The host's turn (log 7, the model's form of the host's input) changes this only by dropping a `quiet` entry. -/
def Obligations.StepRunsDecodedInstruction : Prop :=
  ∀ (i : Instr) (s : State), i.wf = true → StandsAtPc i s → s.runState = .running →
    (s.hostEvents = [] → step s = exec i s) ∧
    (∀ codes rest, s.hostEvents = .answer codes :: rest → step s = exec i s) ∧
    (∀ rest, s.hostEvents = .quiet :: rest → step s = exec i (s.setHost rest))

/-- 41_machine_control.md R131: an unknown opcode is reported with its position and value, skipped by one word, and nothing else happens. -/
def Obligations.UnknownOpcodeIsReportedAndSkipped : Prop :=
  ∀ s u : State, CoreTurn s u → s.pc.toNat < s.memLen.toNat →
    21 < (s.mem.readWord s.pc.toNat).toNat →
    ∃ t, step s = .next t ∧ t.trace = s.trace ++ [.diag s.pc (s.mem.readWord s.pc.toNat)] ∧
      t.pc.toNat = s.pc.toNat + 1 ∧ FrameBut [.trace, .pc] u t

/-- 40_execution_engine.md section 1: a pc not below N at fetch is the implicit halt, however pc came there (the spec's own decision D4). -/
def Obligations.FetchBeyondMemoryHalts : Prop :=
  ∀ s u : State, CoreTurn s u → s.memLen.toNat ≤ s.pc.toNat →
    ∃ t, step s = .next t ∧ t.runState = .halted ∧ t.haltCause = .endOfMemory ∧ FrameBut [.runState, .haltCause] u t

/-- 40_execution_engine.md section 1, operand fetch: an instruction whose operand words run past N faults, reporting the first
missing address, which is N. The spec's own decisions D5 and D13. -/
def Obligations.TruncatedInstructionFaults : Prop :=
  ∀ (s u : State) (e : RomEntry), CoreTurn s u → s.pc.toNat < s.memLen.toNat →
    rom[(s.mem.readWord s.pc.toNat).toNat]? = some e → s.memLen.toNat ≤ s.pc.toNat + e.k →
    ∃ t, step s = .next t ∧ FaultEntry u t s.pc .truncatedInstruction s.memLen

/-! ### Machine control -/

/-- 41_machine_control.md, HALT: the run ends in HALTED with HALT_OPCODE; registers, memory, stack and input queue are unchanged.
Nothing is said of pc: 93_implementation_defined.md asks that no claim rest on it. -/
def Obligations.HaltEndsTheRun : Prop :=
  EncodedAs .halt [0] ∧
  ∀ s : State, ∃ t, exec .halt s = .next t ∧ t.runState = .halted ∧ t.haltCause = .haltOpcode ∧
    FrameBut [.pc, .runState, .haltCause] s t

/-- 41_machine_control.md R133: NOOP advances pc by 1 and has no other effect. -/
def Obligations.NoopOnlyAdvances : Prop :=
  EncodedAs .noop [21] ∧
  ∀ s : State, ∃ t, exec .noop s = .next t ∧ t.pc = s.pc + 1 ∧ FrameBut [.pc] s t

/-! ### Register move and stack -/

/-- 42_register_stack.md R140: SET. -/
def Obligations.SetWritesResolvedValue : Prop :=
  (∀ wa wb : Word, EncodedAs (.set (.ofWord wa) (.ofWord wb)) [1, wa, wb]) ∧
  ∀ (a b : Operand) (s : State), OperandFaultsFirst (.set a b) s ∧
    ∀ A B, lvalue a = .ok A → rvalue b s = .ok B →
      ∃ t, exec (.set a b) s = .next t ∧ t.reg A = B ∧ t.pc = s.pc + 3 ∧ FrameBut [.reg A, .pc] s t

/-- 42_register_stack.md, PUSH: the resolved value goes on top. The overflow clause is the spec's own decision D10. -/
def Obligations.PushPutsResolvedValueOnTop : Prop :=
  (∀ wa : Word, EncodedAs (.push (.ofWord wa)) [2, wa]) ∧
  ∀ (a : Operand) (s : State) (A : Value), rvalue a s = .ok A →
    (s.params.stackCapacity ≠ some s.stack.length → ∃ t w, exec (.push a) s = .next t ∧ t.stack = w :: s.stack ∧
      w.toNat = A.toNat ∧ t.pc = s.pc + 2 ∧ FrameBut [.stack, .pc] s t) ∧
    (s.params.stackCapacity = some s.stack.length → FaultsWith (.push a) s .stackOverflow (A.setWidth 16))

/-- 42_register_stack.md, POP. The WORD_RANGE clause is the spec's own decision D9, and that a faulting POP leaves all else alone D13. -/
def Obligations.PopTakesTopOfStack : Prop :=
  (∀ wa : Word, EncodedAs (.pop (.ofWord wa)) [3, wa]) ∧
  ∀ (a : Operand) (s : State) (A : RegIdx), lvalue a = .ok A →
    (s.stack = [] → FaultsWith (.pop a) s .stackUnderflow 0) ∧
    (∀ v rest, s.stack = v :: rest → v.toNat ≤ 32767 → ∃ t, exec (.pop a) s = .next t ∧ (t.reg A).toNat = v.toNat ∧
      t.stack = rest ∧ t.pc = s.pc + 2 ∧ FrameBut [.reg A, .stack, .pc] s t) ∧
    (∀ v rest, s.stack = v :: rest → 32767 < v.toNat → FaultsWith (.pop a) s .wordRange v)

/-! ### Comparison -/

/-- 43_compare.md R150: EQ writes 1 when the two read values are equal, else 0. -/
def Obligations.EqWritesTruthOfEquality : Prop :=
  (∀ wa wb wc : Word, EncodedAs (.eq (.ofWord wa) (.ofWord wb) (.ofWord wc)) [4, wa, wb, wc]) ∧
  ∀ (a b c : Operand) (s : State), OperandFaultsFirst (.eq a b c) s ∧
    ∀ A B C, lvalue a = .ok A → rvalue b s = .ok B → rvalue c s = .ok C →
      ∃ t, exec (.eq a b c) s = .next t ∧ (t.reg A).toNat = (if B.toNat = C.toNat then 1 else 0) ∧ t.pc = s.pc + 4 ∧
        FrameBut [.reg A, .pc] s t

/-- 43_compare.md R151: GT writes 1 when the first read value is the greater, unsigned and strict, else 0. -/
def Obligations.GtWritesTruthOfUnsignedGreater : Prop :=
  (∀ wa wb wc : Word, EncodedAs (.gt (.ofWord wa) (.ofWord wb) (.ofWord wc)) [5, wa, wb, wc]) ∧
  ∀ (a b c : Operand) (s : State), OperandFaultsFirst (.gt a b c) s ∧
    ∀ A B C, lvalue a = .ok A → rvalue b s = .ok B → rvalue c s = .ok C →
      ∃ t, exec (.gt a b c) s = .next t ∧ (t.reg A).toNat = (if C.toNat < B.toNat then 1 else 0) ∧ t.pc = s.pc + 4 ∧
        FrameBut [.reg A, .pc] s t

/-! ### Jumps and branches -/

/-- 44_branch.md R160: JMP sets pc to the resolved target, in memory or not. -/
def Obligations.JmpGoesToTarget : Prop :=
  (∀ wa : Word, EncodedAs (.jmp (.ofWord wa)) [6, wa]) ∧
  ∀ (a : Operand) (s : State), OperandFaultsFirst (.jmp a) s ∧
    ∀ A, rvalue a s = .ok A → ∃ t, exec (.jmp a) s = .next t ∧ t.pc.toNat = A.toNat ∧ FrameBut [.pc] s t

/-- 44_branch.md, JT: every non-zero value is true; not taken advances by exactly 3. Both operands are resolved first on either path
(the spec's own decision D14). -/
def Obligations.JtJumpsOnNonZero : Prop :=
  (∀ wa wb : Word, EncodedAs (.jt (.ofWord wa) (.ofWord wb)) [7, wa, wb]) ∧
  ∀ (a b : Operand) (s : State), OperandFaultsFirst (.jt a b) s ∧
    ∀ A B, rvalue a s = .ok A → rvalue b s = .ok B → ∃ t, exec (.jt a b) s = .next t ∧
      (A.toNat ≠ 0 → t.pc.toNat = B.toNat) ∧ (A.toNat = 0 → t.pc = s.pc + 3) ∧ FrameBut [.pc] s t

/-- 44_branch.md, JF: only 0 is false; not taken advances by exactly 3. Both operands are resolved first on either path (the spec's
own decision D14). -/
def Obligations.JfJumpsOnZero : Prop :=
  (∀ wa wb : Word, EncodedAs (.jf (.ofWord wa) (.ofWord wb)) [8, wa, wb]) ∧
  ∀ (a b : Operand) (s : State), OperandFaultsFirst (.jf a b) s ∧
    ∀ A B, rvalue a s = .ok A → rvalue b s = .ok B → ∃ t, exec (.jf a b) s = .next t ∧
      (A.toNat = 0 → t.pc.toNat = B.toNat) ∧ (A.toNat ≠ 0 → t.pc = s.pc + 3) ∧ FrameBut [.pc] s t

/-! ### Arithmetic and logic -/

/-- 45_alu.md R170: ADD keeps the exact sum modulo 32768. -/
def Obligations.AddKeepsSumModulo32768 : Prop :=
  (∀ wa wb wc : Word, EncodedAs (.add (.ofWord wa) (.ofWord wb) (.ofWord wc)) [9, wa, wb, wc]) ∧
  ∀ (a b c : Operand) (s : State), OperandFaultsFirst (.add a b c) s ∧
    ∀ A B C, lvalue a = .ok A → rvalue b s = .ok B → rvalue c s = .ok C →
      ∃ t, exec (.add a b c) s = .next t ∧ (t.reg A).toNat = (B.toNat + C.toNat) % 32768 ∧ t.pc = s.pc + 4 ∧
        FrameBut [.reg A, .pc] s t

/-- 45_alu.md R171: MULT keeps the exact product modulo 32768. -/
def Obligations.MultKeepsProductModulo32768 : Prop :=
  (∀ wa wb wc : Word, EncodedAs (.mult (.ofWord wa) (.ofWord wb) (.ofWord wc)) [10, wa, wb, wc]) ∧
  ∀ (a b c : Operand) (s : State), OperandFaultsFirst (.mult a b c) s ∧
    ∀ A B C, lvalue a = .ok A → rvalue b s = .ok B → rvalue c s = .ok C →
      ∃ t, exec (.mult a b c) s = .next t ∧ (t.reg A).toNat = (B.toNat * C.toNat) % 32768 ∧ t.pc = s.pc + 4 ∧
        FrameBut [.reg A, .pc] s t

/-- 45_alu.md, MOD: the unsigned remainder. The zero-divisor clause is the spec's own decision D8. -/
def Obligations.ModKeepsUnsignedRemainder : Prop :=
  (∀ wa wb wc : Word, EncodedAs (.mod (.ofWord wa) (.ofWord wb) (.ofWord wc)) [11, wa, wb, wc]) ∧
  ∀ (a b c : Operand) (s : State) (A : RegIdx) (B C : Value),
    lvalue a = .ok A → rvalue b s = .ok B → rvalue c s = .ok C →
    (C.toNat ≠ 0 → ∃ t, exec (.mod a b c) s = .next t ∧ (t.reg A).toNat = B.toNat % C.toNat ∧ t.pc = s.pc + 4 ∧
      FrameBut [.reg A, .pc] s t) ∧
    (C.toNat = 0 → FaultsWith (.mod a b c) s .divideByZero (B.setWidth 16))

/-- 45_alu.md R173: AND. -/
def Obligations.AndKeepsBitwiseAnd : Prop :=
  (∀ wa wb wc : Word, EncodedAs (.and (.ofWord wa) (.ofWord wb) (.ofWord wc)) [12, wa, wb, wc]) ∧
  ∀ (a b c : Operand) (s : State), OperandFaultsFirst (.and a b c) s ∧
    ∀ A B C, lvalue a = .ok A → rvalue b s = .ok B → rvalue c s = .ok C →
      ∃ t, exec (.and a b c) s = .next t ∧ (t.reg A).toNat = B.toNat &&& C.toNat ∧ t.pc = s.pc + 4 ∧
        FrameBut [.reg A, .pc] s t

/-- 45_alu.md R174: OR. -/
def Obligations.OrKeepsBitwiseOr : Prop :=
  (∀ wa wb wc : Word, EncodedAs (.or (.ofWord wa) (.ofWord wb) (.ofWord wc)) [13, wa, wb, wc]) ∧
  ∀ (a b c : Operand) (s : State), OperandFaultsFirst (.or a b c) s ∧
    ∀ A B C, lvalue a = .ok A → rvalue b s = .ok B → rvalue c s = .ok C →
      ∃ t, exec (.or a b c) s = .next t ∧ (t.reg A).toNat = B.toNat ||| C.toNat ∧ t.pc = s.pc + 4 ∧
        FrameBut [.reg A, .pc] s t

/-- 45_alu.md R175: NOT is the 15-bit complement, `32767 - B`. -/
def Obligations.NotKeepsFifteenBitComplement : Prop :=
  (∀ wa wb : Word, EncodedAs (.not (.ofWord wa) (.ofWord wb)) [14, wa, wb]) ∧
  ∀ (a b : Operand) (s : State), OperandFaultsFirst (.not a b) s ∧
    ∀ A B, lvalue a = .ok A → rvalue b s = .ok B →
      ∃ t, exec (.not a b) s = .next t ∧ (t.reg A).toNat = 32767 - B.toNat ∧ t.pc = s.pc + 3 ∧ FrameBut [.reg A, .pc] s t

/-- 95_test_vectors.md S2: "NOT(NOT(x)) == x", as two NOT instructions one after the other, the second reading what the first wrote. -/
def Obligations.NotTwiceRestoresValue : Prop :=
  ∀ (a a' b : Operand) (s : State) (A A' : RegIdx) (B : Value),
    lvalue a = .ok A → lvalue a' = .ok A' → rvalue b s = .ok B →
    ∃ t u, exec (.not a b) s = .next t ∧ exec (.not a' (.reg A)) t = .next u ∧ u.reg A' = B

/-! ### Memory access -/

/-- 46_memory_access.md, RMEM: the word is moved as stored. The WORD_RANGE clause is the spec's own decision D9, the frames of the
faults D13. -/
def Obligations.RmemMovesStoredWord : Prop :=
  (∀ wa wb : Word, EncodedAs (.rmem (.ofWord wa) (.ofWord wb)) [15, wa, wb]) ∧
  ∀ (a b : Operand) (s : State) (A : RegIdx) (B : Value), lvalue a = .ok A → rvalue b s = .ok B →
    (B.toNat < s.memLen.toNat → (s.mem.readWord B.toNat).toNat ≤ 32767 →
      ∃ t, exec (.rmem a b) s = .next t ∧ (t.reg A).toNat = (s.mem.readWord B.toNat).toNat ∧ t.pc = s.pc + 3 ∧
        FrameBut [.reg A, .pc] s t) ∧
    (B.toNat < s.memLen.toNat → 32767 < (s.mem.readWord B.toNat).toNat →
      FaultsWith (.rmem a b) s .wordRange (s.mem.readWord B.toNat)) ∧
    (s.memLen.toNat ≤ B.toNat → FaultsWith (.rmem a b) s .memoryRange (B.setWidth 16))

/-- 46_memory_access.md R191: WMEM stores the resolved value in the addressed word and in no other byte; an address not below N faults. -/
def Obligations.WmemStoresResolvedValue : Prop :=
  (∀ wa wb : Word, EncodedAs (.wmem (.ofWord wa) (.ofWord wb)) [16, wa, wb]) ∧
  ∀ (a b : Operand) (s : State), OperandFaultsFirst (.wmem a b) s ∧
    ∀ A B, rvalue a s = .ok A → rvalue b s = .ok B →
      (A.toNat < s.memLen.toNat → ∃ t, exec (.wmem a b) s = .next t ∧ (t.mem.readWord A.toNat).toNat = B.toNat ∧
        t.pc = s.pc + 3 ∧ FrameBut [.byte (2 * A.toNat), .byte (2 * A.toNat + 1), .pc] s t) ∧
      (s.memLen.toNat ≤ A.toNat → EntersFault (.wmem a b) s .memoryRange (A.setWidth 16))

/-- 20_memory.md section 5, and program P4 of 95_test_vectors.md: a WMEM that overwrites the very next opcode word is seen by the
very next fetch, whatever value B it stores at p + 3: the word at pc is B, the instruction that then stands at pc has opcode B and is the
one that runs, and a B above 21 is reported as an unknown opcode. -/
def Obligations.NextFetchSeesWmem : Prop :=
  ∀ (a b : Operand) (s : State) (A B : Value),
    rvalue a s = .ok A → rvalue b s = .ok B → A.toNat = s.pc.toNat + 3 → A.toNat < s.memLen.toNat →
    ∃ t, exec (.wmem a b) s = .next t ∧ t.pc.toNat = A.toNat ∧ (t.mem.readWord t.pc.toNat).toNat = B.toNat ∧
      ∀ u, CoreTurn t u →
        (∀ i, i.wf = true → StandsAtPc i t → i.opcode.toNat = B.toNat ∧ step t = exec i u) ∧
        (21 < B.toNat → ∃ v, step t = .next v ∧ v.trace = t.trace ++ [.diag t.pc (B.setWidth 16)])

/-! ### Call and return -/

/-- 47_call_return.md, CALL: pushes p + 2 and goes to the resolved target. The overflow clause is the spec's own decision D10. -/
def Obligations.CallPushesReturnAddress : Prop :=
  (∀ wa : Word, EncodedAs (.call (.ofWord wa)) [17, wa]) ∧
  ∀ (a : Operand) (s : State) (A : Value), rvalue a s = .ok A →
    (s.params.stackCapacity ≠ some s.stack.length → ∃ t, exec (.call a) s = .next t ∧ t.stack = (s.pc + 2) :: s.stack ∧
      t.pc.toNat = A.toNat ∧ FrameBut [.stack, .pc] s t) ∧
    (s.params.stackCapacity = some s.stack.length → FaultsWith (.call a) s .stackOverflow (s.pc + 2))

/-- 47_call_return.md R201: RET pops whatever word is on top into pc; an empty stack is the fault STACK_UNDERFLOW. -/
def Obligations.RetPopsIntoPc : Prop :=
  EncodedAs .ret [18] ∧
  ∀ s : State,
    (∀ w rest, s.stack = w :: rest → ∃ t, exec .ret s = .next t ∧ t.pc = w ∧ t.stack = rest ∧ FrameBut [.stack, .pc] s t) ∧
    (s.stack = [] → EntersFault .ret s .stackUnderflow 0)

/-- 95_test_vectors.md S5: after a CALL, a RET in any later state with that stack returns to exactly p + 2 and restores the stack. -/
def Obligations.CallThenRetReturns : Prop :=
  ∀ (a : Operand) (s t u : State), s.runState ≠ .faulted → exec (.call a) s = .next t → t.runState ≠ .faulted →
    u.stack = t.stack → ∃ v, exec .ret u = .next v ∧ v.pc = s.pc + 2 ∧ v.stack = s.stack ∧ FrameBut [.pc, .stack] u v

/-! ### Console -/

/-- 48_io.md R210: OUT appends exactly one character event. -/
def Obligations.OutAppendsOneCharacter : Prop :=
  (∀ wa : Word, EncodedAs (.out (.ofWord wa)) [19, wa]) ∧
  ∀ (a : Operand) (s : State), OperandFaultsFirst (.out a) s ∧
    ∀ A, rvalue a s = .ok A → ∃ t, exec (.out a) s = .next t ∧ t.trace = s.trace ++ [.out A] ∧ t.pc = s.pc + 2 ∧
      FrameBut [.trace, .pc] s t

/-- 48_io.md, IN: takes the front code; with an empty queue it requests a line and waits, writing nothing else; a front code above
32767 faults (the spec's own decision D9) and stays in the queue. -/
def Obligations.InTakesFrontOrWaits : Prop :=
  (∀ wa : Word, EncodedAs (.in_ (.ofWord wa)) [20, wa]) ∧
  ∀ (a : Operand) (s : State) (A : RegIdx), lvalue a = .ok A →
    (∀ c q, s.inputQueue = c :: q → c.toNat ≤ 32767 → ∃ t, exec (.in_ a) s = .next t ∧ (t.reg A).toNat = c.toNat ∧
      t.inputQueue = q ∧ t.pc = s.pc + 2 ∧ FrameBut [.reg A, .inputQueue, .pc] s t) ∧
    (s.inputQueue = [] → ∃ t, exec (.in_ a) s = .next t ∧ t.runState = .waitInput ∧ t.trace = s.trace ++ [.lineRequest] ∧
      FrameBut [.runState, .trace] s t) ∧
    (∀ c q, s.inputQueue = c :: q → 32767 < c.toNat → FaultsWith (.in_ a) s .wordRange c)

/-- 48_io.md, refill, waiting and line contents: in WAIT_INPUT at an IN with an empty queue, a line that fits refills the queue with
its codes and LINE_TERMINATOR and the same IN completes from the front code; above 32767 that code faults with the refilled line kept.
The second outcome is the spec's own decision D9, its fault entry D13. -/
def Obligations.LineRefillsQueueAndCompletesIn : Prop :=
  ∀ (s : State) (codes : List Word) (rest : List HostEvent) (a : Operand) (A : RegIdx) (c : Word) (q : List Word),
    s.runState = .waitInput → (s.hostEvents = .line codes :: rest ∨ s.hostEvents = .answer codes :: rest) →
    a.wf = true → StandsAtPc (.in_ a) s → lvalue a = .ok A → s.inputQueue = [] →
    (∀ n, s.params.inputLineMax = some n → codes.length ≤ n) → codes ++ [s.params.lineTerminator] = c :: q →
    (c.toNat ≤ 32767 → ∃ t, step s = .next t ∧ t.runState = .running ∧ (t.reg A).toNat = c.toNat ∧ t.inputQueue = q ∧
      t.pc = s.pc + 2 ∧ t.hostEvents = rest ∧ FrameBut [.runState, .reg A, .inputQueue, .pc, .hostEvents] s t) ∧
    (32767 < c.toNat → ∃ t, step s = .next t ∧ t.runState = .faulted ∧ t.faultCause = .wordRange ∧ t.faultPc = s.pc ∧
      t.faultInfo = c ∧ t.inputQueue = c :: q ∧ t.hostEvents = rest ∧
      FrameBut [.runState, .faultCause, .faultPc, .faultInfo, .inputQueue, .hostEvents] s t)

/-- 48_io.md, line contents: a line longer than a bounded INPUT_LINE_MAX faults at its arrival and enqueues nothing. The spec's own
decision D12; FAULT_PC and that nothing else changes are the fault entry of 60_exceptions.md section 3, the spec's own decision D13. -/
def Obligations.TooLongLineFaults : Prop :=
  ∀ (s : State) (codes : List Word) (rest : List HostEvent) (n : Nat),
    s.runState = .waitInput → (s.hostEvents = .line codes :: rest ∨ s.hostEvents = .answer codes :: rest) →
    s.params.inputLineMax = some n → n < codes.length →
    ∃ t info, step s = .next t ∧ info.toNat = min codes.length 65535 ∧
      FaultEntry (s.setHost rest) t s.pc .inputOverflow info

/-- 10_state.md section 9, INPUT: a line outside WAIT_INPUT has no effect (the spec's own decision D17), and in WAIT_INPUT the CORE
makes no progress without one. -/
def Obligations.LinesCountOnlyWhileWaiting : Prop :=
  ∀ s : State,
    (∀ codes rest, s.hostEvents = .line codes :: rest → s.runState ≠ .waitInput →
      ∃ t, step s = .next t ∧ t.hostEvents = rest ∧ FrameBut [.hostEvents] s t) ∧
    (s.runState = .waitInput → s.hostEvents = [] → step s = .fault .noLineArrives)

/-! ### Load and reset -/

/-- 20_memory.md sections 2 and 3: a good image fills memory little-endian, word i from bytes 2i and 2i+1, sets N and starts at 0.
The bound MEM_MAX is the spec's own decision D2, the start address D1. -/
def Obligations.LoadFillsMemoryLittleEndian : Prop :=
  ∀ (s : State) (image : List Byte) (rest : List HostEvent),
    s.runState = .load → s.hostEvents = .load image :: rest →
    image.length ≠ 0 → image.length % 2 = 0 → image.length / 2 ≤ 32768 →
    ∃ t, step s = .next t ∧ t.runState = .running ∧ t.pc = 0 ∧ t.memLen.toNat = image.length / 2 ∧
      (∀ i lo hi, image[2 * i]? = some lo → image[2 * i + 1]? = some hi →
        (t.mem.readWord i).toNat = lo.toNat + 256 * hi.toNat) ∧
      (∀ i, t.reg i = s.reg i) ∧ t.stack = s.stack ∧ t.inputQueue = s.inputQueue ∧ t.trace = s.trace ∧
      t.haltCause = s.haltCause ∧ t.faultCause = s.faultCause ∧ t.hostEvents = rest

/-- 20_memory.md section 2: an empty image, an odd byte length and (the spec's own decision D2) more than MEM_MAX words are the
malformed-image fault, with info 0, 1 and 2 (D15) and FAULT_PC 0, and nothing else changes (D13). -/
def Obligations.MalformedImageFaults : Prop :=
  ∀ (s : State) (image : List Byte) (rest : List HostEvent), s.runState = .load → s.hostEvents = .load image :: rest →
    (image.length = 0 → ∃ t, step s = .next t ∧ FaultEntry (s.setHost rest) t 0 .malformedImage 0) ∧
    (image.length % 2 = 1 → ∃ t, step s = .next t ∧ FaultEntry (s.setHost rest) t 0 .malformedImage 1) ∧
    (image.length % 2 = 0 → 32768 < image.length / 2 →
      ∃ t, step s = .next t ∧ FaultEntry (s.setHost rest) t 0 .malformedImage 2)

/-- 70_reset_and_hazards.md section 1, the table of reset values (pc by decision D1, status registers D16, trace D18, RESET itself
D23): the state at reset has them, and RESET in any state gives them back. That RESET keeps the parameters and the host's later
events is the model's choice (log 20). -/
def Obligations.ResetGivesTableValues : Prop :=
  AtResetValues State.reset ∧
  ∀ (s : State) (rest : List HostEvent), s.hostEvents = .reset :: rest →
    ∃ t, step s = .next t ∧ AtResetValues t ∧ t.params = s.params ∧ t.hostEvents = rest

/-- 60_exceptions.md R238: HALTED and FAULTED have no step, and only RESET leaves them. -/
def Obligations.OnlyResetLeavesHaltedAndFaulted : Prop :=
  ∀ s : State, s.runState = .halted ∨ s.runState = .faulted →
    (s.hostEvents = [] → ∀ t, step s ≠ .next t) ∧
    (∀ t, step s = .next t → (∀ rest, s.hostEvents ≠ .reset :: rest) → FrameBut [.hostEvents] s t)

/-! ### Rules over all instructions -/

/-- 10_state.md R22: a register changes only in SET, POP, EQ, GT, ADD, MULT, MOD, AND, OR, NOT, RMEM and IN, and only the one their
first operand names by `lvalue`. -/
def Obligations.OnlyWriteOperandRegisterChanges : Prop :=
  ∀ (i : Instr) (s t : State), exec i s = .next t → ∀ r, t.reg r ≠ s.reg r →
    i.opcode.toNat ∈ [1, 3, 4, 5, 9, 10, 11, 12, 13, 14, 15, 20] ∧
    ∃ a rest, i.operands = (.write, a) :: rest ∧ lvalue a = .ok r

/-- 20_memory.md section 3: no instruction but WMEM changes a byte of memory, and WMEM changes only bytes of the word its first
operand addresses, which is below N. -/
def Obligations.OnlyWmemChangesMemory : Prop :=
  ∀ (i : Instr) (s t : State), exec i s = .next t → ∀ x, t.mem.readByte x ≠ s.mem.readByte x →
    ∃ a b A, i = .wmem a b ∧ rvalue a s = .ok A ∧ A.toNat < s.memLen.toNat ∧ (x = 2 * A.toNat ∨ x = 2 * A.toNat + 1)

/-- 10_state.md section 4: PUSH and CALL push one word, POP and RET pop one word, no other instruction touches the stack. -/
def Obligations.OnlyFourInstructionsTouchStack : Prop :=
  ∀ (i : Instr) (s t : State), exec i s = .next t → t.stack ≠ s.stack →
    (i.opcode.toNat ∈ [2, 17] ∧ ∃ w, t.stack = w :: s.stack) ∨ (i.opcode.toNat ∈ [3, 18] ∧ ∃ w, s.stack = w :: t.stack)

/-- 10_state.md section 5: of the instructions only IN changes the input queue, and it takes one code from the front. -/
def Obligations.OnlyInDequeuesInput : Prop :=
  ∀ (i : Instr) (s t : State), exec i s = .next t → t.inputQueue ≠ s.inputQueue →
    ∃ a c, i = .in_ a ∧ s.inputQueue = c :: t.inputQueue

/-- 60_exceptions.md section 3: an instruction that enters FAULTED commits nothing but the fault registers, with FAULT_PC its own
address. The spec's own decision D13. -/
def Obligations.FaultingInstructionCommitsNothing : Prop :=
  ∀ (i : Instr) (s t : State), exec i s = .next t → s.runState ≠ .faulted → t.runState = .faulted →
    t.faultCause ≠ .none ∧ FaultEntry s t s.pc t.faultCause t.faultInfo

/-- 60_exceptions.md section 1, the table of which instruction can raise which fault (derived there from the instruction rules). -/
def Obligations.InstructionRaisesOnlyItsFaults : Prop :=
  ∀ (i : Instr) (s t : State), exec i s = .next t → s.runState ≠ .faulted → t.runState = .faulted →
    t.faultCause ∈ raisable i

/-- 30_encoding.md section 2: an instruction in the source's own form (write operands register references, no invalid operand) never
enters the two operand faults (the spec's own decisions D6 and D7). -/
def Obligations.SourceFormNeverRaisesOperandFault : Prop :=
  ∀ (i : Instr) (s t : State), i.sourceForm = true → exec i s = .next t → s.runState ≠ .faulted →
    t.runState = .faulted → t.faultCause ≠ .invalidOperand ∧ t.faultCause ≠ .invalidRegister

/-- 30_encoding.md section 5, the pc policies: the ROM entry of the instruction gives its next pc, wherever it neither faults nor
waits. Of HALT only the halt is claimed (93_implementation_defined.md asks that no claim rest on its pc). -/
def Obligations.NextPcFollowsRomPolicy : Prop :=
  ∀ (i : Instr) (s t : State), exec i s = .next t → s.runState = .running →
    t.runState ≠ .faulted → t.runState ≠ .waitInput →
    ∃ e, rom[i.opcode.toNat]? = some e ∧
      match e.policy with
      | .seq => t.pc = s.pc + 1 + BitVec.ofNat 16 e.k
      | .halt => t.runState = .halted
      | .jump => ∃ a A, i.operands = [(.read, a)] ∧ rvalue a s = .ok A ∧ t.pc = A.setWidth 16
      | .condNz => ∃ a b A B, i.operands = [(.read, a), (.read, b)] ∧ rvalue a s = .ok A ∧ rvalue b s = .ok B ∧
          t.pc = if A.toNat ≠ 0 then B.setWidth 16 else s.pc + 3
      | .condZ => ∃ a b A B, i.operands = [(.read, a), (.read, b)] ∧ rvalue a s = .ok A ∧ rvalue b s = .ok B ∧
          t.pc = if A.toNat = 0 then B.setWidth 16 else s.pc + 3
      | .call => ∃ a A, i.operands = [(.read, a)] ∧ rvalue a s = .ok A ∧ t.pc = A.setWidth 16 ∧
          t.stack = (s.pc + 2) :: s.stack
      | .ret => s.stack = t.pc :: t.stack

/-- 40_execution_engine.md section 4: pc arithmetic is exact. A step that runs a sequential instruction to its end moves pc by its
width as numbers, and not past N. (Derived there from operand fetch.) -/
def Obligations.SequentialPcNeverWraps : Prop :=
  ∀ (i : Instr) (e : RomEntry) (s u t : State), CoreTurn s u → fetch s = .instr i →
    rom[i.opcode.toNat]? = some e → e.policy = .seq → step s = .next t → t.runState = .running →
    t.pc.toNat = s.pc.toNat + 1 + e.k ∧ t.pc.toNat ≤ s.memLen.toNat

/-- 10_state.md section 7: no instruction reads HALT_CAUSE or the FAULT registers (the spec's own decision D16). 40_execution_engine.md
section 3 and 10_state.md section 9: an effect is computed from the resolved operands, the state and the input queue, and the trace is
output only. The host's coming events are the model's own field (log 6). So two states that agree on the rest run every instruction to
states that agree on the rest. -/
def Obligations.StatusAndTraceDoNotInfluenceInstructions : Prop :=
  ∀ (i : Instr) (s s' : State), AgreeForPrograms s s' →
    ∃ t t', exec i s = .next t ∧ exec i s' = .next t' ∧ AgreeForPrograms t t'

/-- 30_encoding.md section 5 (decoding is total) and 40_execution_engine.md section 1: a RUNNING machine always takes its step, and no
step refuses an instruction. An image presented outside LOAD, which the spec does not have, is set aside (log 9). -/
def Obligations.RunningMachineAlwaysSteps : Prop :=
  (∀ s : State, s.runState = .running → (∀ image rest, s.hostEvents ≠ .load image :: rest) → ∃ t, step s = .next t) ∧
  ∀ (s : State) (r : Refusal), step s ≠ .refused r

/-- 10_state.md section 6: N is fixed for the whole run. Only the load and RESET change it. The parameters never change (log 3). -/
def Obligations.MemLenFixedForTheRun : Prop :=
  ∀ s t : State, step s = .next t → t.params = s.params ∧
    (s.runState ≠ .load → (∀ rest, s.hostEvents ≠ .reset :: rest) → t.memLen = s.memLen)

/-- 10_state.md section 9: the events form one ordered trace (the spec's own decision D18): but for RESET, a step adds at most one
event at the end and changes no earlier one. -/
def Obligations.TraceOnlyGrowsByOneEvent : Prop :=
  ∀ s t : State, step s = .next t → (∀ rest, s.hostEvents ≠ .reset :: rest) →
    ∃ evs, t.trace = s.trace ++ evs ∧ evs.length ≤ 1

/-! ### The invariant of a run -/

/-- The state at reset meets the invariant of a run (10_state.md sections 2 to 8). -/
def Obligations.ResetMeetsInvariant : Prop := RunInvariant State.reset

/-- 10_state.md section 8 and the rules its clauses cite: every step, the host's turns among them, keeps the invariant of a run: the
canonical memory within N, pc and stack entries within MEM_MAX, the stack within its capacity, the status registers in step with
RUN_STATE, and an IN at pc while waiting. (Section 8 is derived there from its rules; the canonical form is the model's, log 1.) -/
def Obligations.StepKeepsInvariant : Prop := ∀ s t : State, RunInvariant s → step s = .next t → RunInvariant t

/-! ### What the host reads -/

/-- 10_state.md sections 7 and 9 and the tables of causes of 60_exceptions.md section 1: at any time the host reads RUN_STATE, HALT_CAUSE
and FAULT_CAUSE as the codes of the tables (no other code occurs), with FAULT_PC, FAULT_INFO and MEM_LEN; the registers, pc, the N memory
words and the stack it reads exactly in HALTED and FAULTED. The registers and codes are the spec's own decisions D15 and D16. -/
def Obligations.HostReadsStatusCodesAndEndState : Prop :=
  ∀ s : State,
    ((hostStatus s).runState.toNat = match s.runState with
      | .load => 0
      | .running => 1
      | .waitInput => 2
      | .halted => 3
      | .faulted => 4) ∧
    ((hostStatus s).haltCause.toNat = match s.haltCause with
      | .none => 0
      | .haltOpcode => 1
      | .endOfMemory => 2) ∧
    ((hostStatus s).faultCause.toNat = match s.faultCause with
      | .none => 0
      | .malformedImage => 1
      | .stackUnderflow => 2
      | .memoryRange => 3
      | .truncatedInstruction => 4
      | .invalidOperand => 5
      | .invalidRegister => 6
      | .divideByZero => 7
      | .wordRange => 8
      | .stackOverflow => 9
      | .inputOverflow => 10) ∧
    (hostStatus s).faultPc = s.faultPc ∧ (hostStatus s).faultInfo = s.faultInfo ∧ (hostStatus s).memLen = s.memLen ∧
    (s.runState = .halted ∨ s.runState = .faulted → ∃ e, endState s = some e ∧ (∀ i : RegIdx, e.regs[i] = s.reg i) ∧
      e.pc = s.pc ∧ e.stack = s.stack ∧ e.words.length = s.memLen.toNat ∧
      ∀ i, i < s.memLen.toNat → e.words[i]? = some (s.mem.readWord i)) ∧
    (s.runState ≠ .halted → s.runState ≠ .faulted → endState s = none)
end

