-- ==== Sys2Proof/Laws/Decode.lean ====
section
/-! SUPPORT. Operand words and their classes, and what the formats' decoders answer. -/

namespace Sys2Proof

/-! ### Operand words: one lemma per class -/

theorem Operand.ofWord_lit {w : Word} (h : w.toNat < 32768) : Operand.ofWord w = .lit (w.setWidth 15) := by
  simp [Operand.ofWord, h]

theorem Operand.ofWord_reg {w : Word} {i : RegIdx} (h : w.toNat = 32768 + i.val) : Operand.ofWord w = .reg i := by
  have hi := i.isLt
  have h1 : ¬ w.toNat < 32768 := by omega
  have h2 : w.toNat < 32776 := by omega
  have h3 : (⟨(w.toNat - 32768) % 8, Nat.mod_lt _ (by decide)⟩ : RegIdx) = i := Fin.ext (by simp only; omega)
  rw [Operand.ofWord, if_neg h1, if_pos h2, h3]

theorem Operand.ofWord_invalid {w : Word} (h : 32776 ≤ w.toNat) : Operand.ofWord w = .invalid w := by
  have h1 : ¬ w.toNat < 32768 := by omega
  rw [Operand.ofWord, if_neg h1, if_neg (Nat.not_lt.2 h)]

/-- Every word is in exactly one class. -/
theorem Operand.word_cases (w : Word) :
    w.toNat < 32768 ∨ (∃ i : RegIdx, w.toNat = 32768 + i.val) ∨ 32776 ≤ w.toNat := by
  rcases lt_or_ge w.toNat 32768 with h | h
  · exact .inl h
  · rcases lt_or_ge w.toNat 32776 with h' | h'
    · exact .inr (.inl ⟨⟨w.toNat - 32768, by omega⟩, by simp only; omega⟩)
    · exact .inr (.inr h')

/-- The class keeps every bit of the word. -/
@[simp] theorem Operand.toWord_ofWord (w : Word) : (Operand.ofWord w).toWord = w := by
  apply BitVec.eq_of_toNat_eq
  rcases Operand.word_cases w with h | ⟨i, h⟩ | h
  · rw [Operand.ofWord_lit h]; simp [Operand.toWord]; omega
  · rw [Operand.ofWord_reg h]
    have hi := i.isLt
    simp [Operand.toWord, h]; omega
  · rw [Operand.ofWord_invalid h]; rfl

@[simp] theorem Operand.wf_ofWord (w : Word) : (Operand.ofWord w).wf = true := by
  rcases Operand.word_cases w with h | ⟨i, h⟩ | h
  · rw [Operand.ofWord_lit h]; rfl
  · rw [Operand.ofWord_reg h]; rfl
  · rw [Operand.ofWord_invalid h]; simpa [Operand.wf] using h

theorem Operand.ofWord_toWord {o : Operand} (h : o.wf = true) : Operand.ofWord o.toWord = o := by
  cases o with
  | lit v =>
    have hv := v.isLt
    rw [Operand.toWord, Operand.ofWord_lit (by simp; omega)]
    simp
  | reg i =>
    have hi := i.isLt
    exact Operand.ofWord_reg (by simp [Operand.toWord]; omega)
  | invalid w =>
    have h' : 32776 ≤ w.toNat := by simpa [Operand.wf] using h
    exact Operand.ofWord_invalid h'

/-! ### Opcodes -/

/-- An opcode above 21 is unknown (R78). -/
theorem decodeWords_unknown {op : Word} (h : 21 < op.toNat) (rest : List Word) :
    decodeWords (op :: rest) = .error (.unknownOpcode op) := by
  simp only [decodeWords]
  split <;> first | omega | rfl

theorem Instr.opcode_le (i : Instr) : i.opcode.toNat ≤ 21 := by
  cases i <;> simp [Instr.opcode]

/-- An opcode of the table is one of the 22 numerals, for a case split. -/
theorem opcode_of_le {op : Word} (h : op.toNat ≤ 21) : ∃ n, n ≤ 21 ∧ op = BitVec.ofNat 16 n :=
  ⟨op.toNat, h, BitVec.eq_of_toNat_eq (by simp)⟩

/-- The first word of an encoding is the opcode, and there are as many more as operands (R70). -/
theorem length_encode (i : Instr) : (encode i).length = 1 + i.operands.length := by
  simp [encode, Nat.add_comm]

end Sys2Proof
end

