-- ==== Sys2Proof/Laws/State.lean ====
section
/-! SUPPORT. Each update of the state, field by field, and the register file read after it. -/

namespace Sys2Proof.Machine

variable (s : State)

/-! ### setReg -/

@[simp] theorem State.setReg_regs (i : RegIdx) (v : Value) : (s.setReg i v).regs = s.regs.set i v := rfl
@[simp] theorem State.setReg_pc (i : RegIdx) (v : Value) : (s.setReg i v).pc = s.pc := rfl
@[simp] theorem State.setReg_stack (i : RegIdx) (v : Value) : (s.setReg i v).stack = s.stack := rfl
@[simp] theorem State.setReg_inputQueue (i : RegIdx) (v : Value) : (s.setReg i v).inputQueue = s.inputQueue := rfl
@[simp] theorem State.setReg_mem (i : RegIdx) (v : Value) : (s.setReg i v).mem = s.mem := rfl
@[simp] theorem State.setReg_memLen (i : RegIdx) (v : Value) : (s.setReg i v).memLen = s.memLen := rfl
@[simp] theorem State.setReg_runState (i : RegIdx) (v : Value) : (s.setReg i v).runState = s.runState := rfl
@[simp] theorem State.setReg_haltCause (i : RegIdx) (v : Value) : (s.setReg i v).haltCause = s.haltCause := rfl
@[simp] theorem State.setReg_faultCause (i : RegIdx) (v : Value) : (s.setReg i v).faultCause = s.faultCause := rfl
@[simp] theorem State.setReg_faultPc (i : RegIdx) (v : Value) : (s.setReg i v).faultPc = s.faultPc := rfl
@[simp] theorem State.setReg_faultInfo (i : RegIdx) (v : Value) : (s.setReg i v).faultInfo = s.faultInfo := rfl
@[simp] theorem State.setReg_trace (i : RegIdx) (v : Value) : (s.setReg i v).trace = s.trace := rfl
@[simp] theorem State.setReg_params (i : RegIdx) (v : Value) : (s.setReg i v).params = s.params := rfl
@[simp] theorem State.setReg_hostEvents (i : RegIdx) (v : Value) : (s.setReg i v).hostEvents = s.hostEvents := rfl

/-! ### setPc -/

@[simp] theorem State.setPc_regs (target : Word) : (s.setPc target).regs = s.regs := rfl
@[simp] theorem State.setPc_pc (target : Word) : (s.setPc target).pc = target := rfl
@[simp] theorem State.setPc_stack (target : Word) : (s.setPc target).stack = s.stack := rfl
@[simp] theorem State.setPc_inputQueue (target : Word) : (s.setPc target).inputQueue = s.inputQueue := rfl
@[simp] theorem State.setPc_mem (target : Word) : (s.setPc target).mem = s.mem := rfl
@[simp] theorem State.setPc_memLen (target : Word) : (s.setPc target).memLen = s.memLen := rfl
@[simp] theorem State.setPc_runState (target : Word) : (s.setPc target).runState = s.runState := rfl
@[simp] theorem State.setPc_haltCause (target : Word) : (s.setPc target).haltCause = s.haltCause := rfl
@[simp] theorem State.setPc_faultCause (target : Word) : (s.setPc target).faultCause = s.faultCause := rfl
@[simp] theorem State.setPc_faultPc (target : Word) : (s.setPc target).faultPc = s.faultPc := rfl
@[simp] theorem State.setPc_faultInfo (target : Word) : (s.setPc target).faultInfo = s.faultInfo := rfl
@[simp] theorem State.setPc_trace (target : Word) : (s.setPc target).trace = s.trace := rfl
@[simp] theorem State.setPc_params (target : Word) : (s.setPc target).params = s.params := rfl
@[simp] theorem State.setPc_hostEvents (target : Word) : (s.setPc target).hostEvents = s.hostEvents := rfl
@[simp] theorem State.setPc_reg (target : Word) (j : RegIdx) : (s.setPc target).reg j = s.reg j := rfl

/-! ### advance -/

@[simp] theorem State.advance_regs (width : Word) : (s.advance width).regs = s.regs := rfl
@[simp] theorem State.advance_pc (width : Word) : (s.advance width).pc = s.pc + width := rfl
@[simp] theorem State.advance_stack (width : Word) : (s.advance width).stack = s.stack := rfl
@[simp] theorem State.advance_inputQueue (width : Word) : (s.advance width).inputQueue = s.inputQueue := rfl
@[simp] theorem State.advance_mem (width : Word) : (s.advance width).mem = s.mem := rfl
@[simp] theorem State.advance_memLen (width : Word) : (s.advance width).memLen = s.memLen := rfl
@[simp] theorem State.advance_runState (width : Word) : (s.advance width).runState = s.runState := rfl
@[simp] theorem State.advance_haltCause (width : Word) : (s.advance width).haltCause = s.haltCause := rfl
@[simp] theorem State.advance_faultCause (width : Word) : (s.advance width).faultCause = s.faultCause := rfl
@[simp] theorem State.advance_faultPc (width : Word) : (s.advance width).faultPc = s.faultPc := rfl
@[simp] theorem State.advance_faultInfo (width : Word) : (s.advance width).faultInfo = s.faultInfo := rfl
@[simp] theorem State.advance_trace (width : Word) : (s.advance width).trace = s.trace := rfl
@[simp] theorem State.advance_params (width : Word) : (s.advance width).params = s.params := rfl
@[simp] theorem State.advance_hostEvents (width : Word) : (s.advance width).hostEvents = s.hostEvents := rfl
@[simp] theorem State.advance_reg (width : Word) (j : RegIdx) : (s.advance width).reg j = s.reg j := rfl

/-! ### setStack -/

@[simp] theorem State.setStack_regs (st : List Word) : (s.setStack st).regs = s.regs := rfl
@[simp] theorem State.setStack_pc (st : List Word) : (s.setStack st).pc = s.pc := rfl
@[simp] theorem State.setStack_stack (st : List Word) : (s.setStack st).stack = st := rfl
@[simp] theorem State.setStack_inputQueue (st : List Word) : (s.setStack st).inputQueue = s.inputQueue := rfl
@[simp] theorem State.setStack_mem (st : List Word) : (s.setStack st).mem = s.mem := rfl
@[simp] theorem State.setStack_memLen (st : List Word) : (s.setStack st).memLen = s.memLen := rfl
@[simp] theorem State.setStack_runState (st : List Word) : (s.setStack st).runState = s.runState := rfl
@[simp] theorem State.setStack_haltCause (st : List Word) : (s.setStack st).haltCause = s.haltCause := rfl
@[simp] theorem State.setStack_faultCause (st : List Word) : (s.setStack st).faultCause = s.faultCause := rfl
@[simp] theorem State.setStack_faultPc (st : List Word) : (s.setStack st).faultPc = s.faultPc := rfl
@[simp] theorem State.setStack_faultInfo (st : List Word) : (s.setStack st).faultInfo = s.faultInfo := rfl
@[simp] theorem State.setStack_trace (st : List Word) : (s.setStack st).trace = s.trace := rfl
@[simp] theorem State.setStack_params (st : List Word) : (s.setStack st).params = s.params := rfl
@[simp] theorem State.setStack_hostEvents (st : List Word) : (s.setStack st).hostEvents = s.hostEvents := rfl
@[simp] theorem State.setStack_reg (st : List Word) (j : RegIdx) : (s.setStack st).reg j = s.reg j := rfl

/-! ### push -/

@[simp] theorem State.push_regs (v : Word) : (s.push v).regs = s.regs := rfl
@[simp] theorem State.push_pc (v : Word) : (s.push v).pc = s.pc := rfl
@[simp] theorem State.push_stack (v : Word) : (s.push v).stack = v :: s.stack := rfl
@[simp] theorem State.push_inputQueue (v : Word) : (s.push v).inputQueue = s.inputQueue := rfl
@[simp] theorem State.push_mem (v : Word) : (s.push v).mem = s.mem := rfl
@[simp] theorem State.push_memLen (v : Word) : (s.push v).memLen = s.memLen := rfl
@[simp] theorem State.push_runState (v : Word) : (s.push v).runState = s.runState := rfl
@[simp] theorem State.push_haltCause (v : Word) : (s.push v).haltCause = s.haltCause := rfl
@[simp] theorem State.push_faultCause (v : Word) : (s.push v).faultCause = s.faultCause := rfl
@[simp] theorem State.push_faultPc (v : Word) : (s.push v).faultPc = s.faultPc := rfl
@[simp] theorem State.push_faultInfo (v : Word) : (s.push v).faultInfo = s.faultInfo := rfl
@[simp] theorem State.push_trace (v : Word) : (s.push v).trace = s.trace := rfl
@[simp] theorem State.push_params (v : Word) : (s.push v).params = s.params := rfl
@[simp] theorem State.push_hostEvents (v : Word) : (s.push v).hostEvents = s.hostEvents := rfl
@[simp] theorem State.push_reg (v : Word) (j : RegIdx) : (s.push v).reg j = s.reg j := rfl

/-! ### setQueue -/

@[simp] theorem State.setQueue_regs (q : List Word) : (s.setQueue q).regs = s.regs := rfl
@[simp] theorem State.setQueue_pc (q : List Word) : (s.setQueue q).pc = s.pc := rfl
@[simp] theorem State.setQueue_stack (q : List Word) : (s.setQueue q).stack = s.stack := rfl
@[simp] theorem State.setQueue_inputQueue (q : List Word) : (s.setQueue q).inputQueue = q := rfl
@[simp] theorem State.setQueue_mem (q : List Word) : (s.setQueue q).mem = s.mem := rfl
@[simp] theorem State.setQueue_memLen (q : List Word) : (s.setQueue q).memLen = s.memLen := rfl
@[simp] theorem State.setQueue_runState (q : List Word) : (s.setQueue q).runState = s.runState := rfl
@[simp] theorem State.setQueue_haltCause (q : List Word) : (s.setQueue q).haltCause = s.haltCause := rfl
@[simp] theorem State.setQueue_faultCause (q : List Word) : (s.setQueue q).faultCause = s.faultCause := rfl
@[simp] theorem State.setQueue_faultPc (q : List Word) : (s.setQueue q).faultPc = s.faultPc := rfl
@[simp] theorem State.setQueue_faultInfo (q : List Word) : (s.setQueue q).faultInfo = s.faultInfo := rfl
@[simp] theorem State.setQueue_trace (q : List Word) : (s.setQueue q).trace = s.trace := rfl
@[simp] theorem State.setQueue_params (q : List Word) : (s.setQueue q).params = s.params := rfl
@[simp] theorem State.setQueue_hostEvents (q : List Word) : (s.setQueue q).hostEvents = s.hostEvents := rfl
@[simp] theorem State.setQueue_reg (q : List Word) (j : RegIdx) : (s.setQueue q).reg j = s.reg j := rfl

/-! ### setMem -/

@[simp] theorem State.setMem_regs (m : Memory) : (s.setMem m).regs = s.regs := rfl
@[simp] theorem State.setMem_pc (m : Memory) : (s.setMem m).pc = s.pc := rfl
@[simp] theorem State.setMem_stack (m : Memory) : (s.setMem m).stack = s.stack := rfl
@[simp] theorem State.setMem_inputQueue (m : Memory) : (s.setMem m).inputQueue = s.inputQueue := rfl
@[simp] theorem State.setMem_mem (m : Memory) : (s.setMem m).mem = m := rfl
@[simp] theorem State.setMem_memLen (m : Memory) : (s.setMem m).memLen = s.memLen := rfl
@[simp] theorem State.setMem_runState (m : Memory) : (s.setMem m).runState = s.runState := rfl
@[simp] theorem State.setMem_haltCause (m : Memory) : (s.setMem m).haltCause = s.haltCause := rfl
@[simp] theorem State.setMem_faultCause (m : Memory) : (s.setMem m).faultCause = s.faultCause := rfl
@[simp] theorem State.setMem_faultPc (m : Memory) : (s.setMem m).faultPc = s.faultPc := rfl
@[simp] theorem State.setMem_faultInfo (m : Memory) : (s.setMem m).faultInfo = s.faultInfo := rfl
@[simp] theorem State.setMem_trace (m : Memory) : (s.setMem m).trace = s.trace := rfl
@[simp] theorem State.setMem_params (m : Memory) : (s.setMem m).params = s.params := rfl
@[simp] theorem State.setMem_hostEvents (m : Memory) : (s.setMem m).hostEvents = s.hostEvents := rfl
@[simp] theorem State.setMem_reg (m : Memory) (j : RegIdx) : (s.setMem m).reg j = s.reg j := rfl

/-! ### emit -/

@[simp] theorem State.emit_regs (e : IoEvent) : (s.emit e).regs = s.regs := rfl
@[simp] theorem State.emit_pc (e : IoEvent) : (s.emit e).pc = s.pc := rfl
@[simp] theorem State.emit_stack (e : IoEvent) : (s.emit e).stack = s.stack := rfl
@[simp] theorem State.emit_inputQueue (e : IoEvent) : (s.emit e).inputQueue = s.inputQueue := rfl
@[simp] theorem State.emit_mem (e : IoEvent) : (s.emit e).mem = s.mem := rfl
@[simp] theorem State.emit_memLen (e : IoEvent) : (s.emit e).memLen = s.memLen := rfl
@[simp] theorem State.emit_runState (e : IoEvent) : (s.emit e).runState = s.runState := rfl
@[simp] theorem State.emit_haltCause (e : IoEvent) : (s.emit e).haltCause = s.haltCause := rfl
@[simp] theorem State.emit_faultCause (e : IoEvent) : (s.emit e).faultCause = s.faultCause := rfl
@[simp] theorem State.emit_faultPc (e : IoEvent) : (s.emit e).faultPc = s.faultPc := rfl
@[simp] theorem State.emit_faultInfo (e : IoEvent) : (s.emit e).faultInfo = s.faultInfo := rfl
@[simp] theorem State.emit_trace (e : IoEvent) : (s.emit e).trace = s.trace ++ [e] := rfl
@[simp] theorem State.emit_params (e : IoEvent) : (s.emit e).params = s.params := rfl
@[simp] theorem State.emit_hostEvents (e : IoEvent) : (s.emit e).hostEvents = s.hostEvents := rfl
@[simp] theorem State.emit_reg (e : IoEvent) (j : RegIdx) : (s.emit e).reg j = s.reg j := rfl

/-! ### setRunState -/

@[simp] theorem State.setRunState_regs (r : RunState) : (s.setRunState r).regs = s.regs := rfl
@[simp] theorem State.setRunState_pc (r : RunState) : (s.setRunState r).pc = s.pc := rfl
@[simp] theorem State.setRunState_stack (r : RunState) : (s.setRunState r).stack = s.stack := rfl
@[simp] theorem State.setRunState_inputQueue (r : RunState) : (s.setRunState r).inputQueue = s.inputQueue := rfl
@[simp] theorem State.setRunState_mem (r : RunState) : (s.setRunState r).mem = s.mem := rfl
@[simp] theorem State.setRunState_memLen (r : RunState) : (s.setRunState r).memLen = s.memLen := rfl
@[simp] theorem State.setRunState_runState (r : RunState) : (s.setRunState r).runState = r := rfl
@[simp] theorem State.setRunState_haltCause (r : RunState) : (s.setRunState r).haltCause = s.haltCause := rfl
@[simp] theorem State.setRunState_faultCause (r : RunState) : (s.setRunState r).faultCause = s.faultCause := rfl
@[simp] theorem State.setRunState_faultPc (r : RunState) : (s.setRunState r).faultPc = s.faultPc := rfl
@[simp] theorem State.setRunState_faultInfo (r : RunState) : (s.setRunState r).faultInfo = s.faultInfo := rfl
@[simp] theorem State.setRunState_trace (r : RunState) : (s.setRunState r).trace = s.trace := rfl
@[simp] theorem State.setRunState_params (r : RunState) : (s.setRunState r).params = s.params := rfl
@[simp] theorem State.setRunState_hostEvents (r : RunState) : (s.setRunState r).hostEvents = s.hostEvents := rfl
@[simp] theorem State.setRunState_reg (r : RunState) (j : RegIdx) : (s.setRunState r).reg j = s.reg j := rfl

/-! ### setHost -/

@[simp] theorem State.setHost_regs (h : List HostEvent) : (s.setHost h).regs = s.regs := rfl
@[simp] theorem State.setHost_pc (h : List HostEvent) : (s.setHost h).pc = s.pc := rfl
@[simp] theorem State.setHost_stack (h : List HostEvent) : (s.setHost h).stack = s.stack := rfl
@[simp] theorem State.setHost_inputQueue (h : List HostEvent) : (s.setHost h).inputQueue = s.inputQueue := rfl
@[simp] theorem State.setHost_mem (h : List HostEvent) : (s.setHost h).mem = s.mem := rfl
@[simp] theorem State.setHost_memLen (h : List HostEvent) : (s.setHost h).memLen = s.memLen := rfl
@[simp] theorem State.setHost_runState (h : List HostEvent) : (s.setHost h).runState = s.runState := rfl
@[simp] theorem State.setHost_haltCause (h : List HostEvent) : (s.setHost h).haltCause = s.haltCause := rfl
@[simp] theorem State.setHost_faultCause (h : List HostEvent) : (s.setHost h).faultCause = s.faultCause := rfl
@[simp] theorem State.setHost_faultPc (h : List HostEvent) : (s.setHost h).faultPc = s.faultPc := rfl
@[simp] theorem State.setHost_faultInfo (h : List HostEvent) : (s.setHost h).faultInfo = s.faultInfo := rfl
@[simp] theorem State.setHost_trace (h : List HostEvent) : (s.setHost h).trace = s.trace := rfl
@[simp] theorem State.setHost_params (h : List HostEvent) : (s.setHost h).params = s.params := rfl
@[simp] theorem State.setHost_hostEvents (h : List HostEvent) : (s.setHost h).hostEvents = h := rfl
@[simp] theorem State.setHost_reg (h : List HostEvent) (j : RegIdx) : (s.setHost h).reg j = s.reg j := rfl

/-! ### halt -/

@[simp] theorem State.halt_regs (cause : HaltCause) : (s.halt cause).regs = s.regs := rfl
@[simp] theorem State.halt_pc (cause : HaltCause) : (s.halt cause).pc = s.pc := rfl
@[simp] theorem State.halt_stack (cause : HaltCause) : (s.halt cause).stack = s.stack := rfl
@[simp] theorem State.halt_inputQueue (cause : HaltCause) : (s.halt cause).inputQueue = s.inputQueue := rfl
@[simp] theorem State.halt_mem (cause : HaltCause) : (s.halt cause).mem = s.mem := rfl
@[simp] theorem State.halt_memLen (cause : HaltCause) : (s.halt cause).memLen = s.memLen := rfl
@[simp] theorem State.halt_runState (cause : HaltCause) : (s.halt cause).runState = .halted := rfl
@[simp] theorem State.halt_haltCause (cause : HaltCause) : (s.halt cause).haltCause = cause := rfl
@[simp] theorem State.halt_faultCause (cause : HaltCause) : (s.halt cause).faultCause = s.faultCause := rfl
@[simp] theorem State.halt_faultPc (cause : HaltCause) : (s.halt cause).faultPc = s.faultPc := rfl
@[simp] theorem State.halt_faultInfo (cause : HaltCause) : (s.halt cause).faultInfo = s.faultInfo := rfl
@[simp] theorem State.halt_trace (cause : HaltCause) : (s.halt cause).trace = s.trace := rfl
@[simp] theorem State.halt_params (cause : HaltCause) : (s.halt cause).params = s.params := rfl
@[simp] theorem State.halt_hostEvents (cause : HaltCause) : (s.halt cause).hostEvents = s.hostEvents := rfl
@[simp] theorem State.halt_reg (cause : HaltCause) (j : RegIdx) : (s.halt cause).reg j = s.reg j := rfl

/-! ### raiseAt -/

@[simp] theorem State.raiseAt_regs (p : Word) (cause : FaultCause) (info : Word) : (s.raiseAt p cause info).regs = s.regs := rfl
@[simp] theorem State.raiseAt_pc (p : Word) (cause : FaultCause) (info : Word) : (s.raiseAt p cause info).pc = s.pc := rfl
@[simp] theorem State.raiseAt_stack (p : Word) (cause : FaultCause) (info : Word) : (s.raiseAt p cause info).stack = s.stack := rfl
@[simp] theorem State.raiseAt_inputQueue (p : Word) (cause : FaultCause) (info : Word) : (s.raiseAt p cause info).inputQueue = s.inputQueue := rfl
@[simp] theorem State.raiseAt_mem (p : Word) (cause : FaultCause) (info : Word) : (s.raiseAt p cause info).mem = s.mem := rfl
@[simp] theorem State.raiseAt_memLen (p : Word) (cause : FaultCause) (info : Word) : (s.raiseAt p cause info).memLen = s.memLen := rfl
@[simp] theorem State.raiseAt_runState (p : Word) (cause : FaultCause) (info : Word) : (s.raiseAt p cause info).runState = .faulted := rfl
@[simp] theorem State.raiseAt_haltCause (p : Word) (cause : FaultCause) (info : Word) : (s.raiseAt p cause info).haltCause = s.haltCause := rfl
@[simp] theorem State.raiseAt_faultCause (p : Word) (cause : FaultCause) (info : Word) : (s.raiseAt p cause info).faultCause = cause := rfl
@[simp] theorem State.raiseAt_faultPc (p : Word) (cause : FaultCause) (info : Word) : (s.raiseAt p cause info).faultPc = p := rfl
@[simp] theorem State.raiseAt_faultInfo (p : Word) (cause : FaultCause) (info : Word) : (s.raiseAt p cause info).faultInfo = info := rfl
@[simp] theorem State.raiseAt_trace (p : Word) (cause : FaultCause) (info : Word) : (s.raiseAt p cause info).trace = s.trace := rfl
@[simp] theorem State.raiseAt_params (p : Word) (cause : FaultCause) (info : Word) : (s.raiseAt p cause info).params = s.params := rfl
@[simp] theorem State.raiseAt_hostEvents (p : Word) (cause : FaultCause) (info : Word) : (s.raiseAt p cause info).hostEvents = s.hostEvents := rfl
@[simp] theorem State.raiseAt_reg (p : Word) (cause : FaultCause) (info : Word) (j : RegIdx) : (s.raiseAt p cause info).reg j = s.reg j := rfl

/-! ### raise -/

@[simp] theorem State.raise_regs (cause : FaultCause) (info : Word) : (s.raise cause info).regs = s.regs := rfl
@[simp] theorem State.raise_pc (cause : FaultCause) (info : Word) : (s.raise cause info).pc = s.pc := rfl
@[simp] theorem State.raise_stack (cause : FaultCause) (info : Word) : (s.raise cause info).stack = s.stack := rfl
@[simp] theorem State.raise_inputQueue (cause : FaultCause) (info : Word) : (s.raise cause info).inputQueue = s.inputQueue := rfl
@[simp] theorem State.raise_mem (cause : FaultCause) (info : Word) : (s.raise cause info).mem = s.mem := rfl
@[simp] theorem State.raise_memLen (cause : FaultCause) (info : Word) : (s.raise cause info).memLen = s.memLen := rfl
@[simp] theorem State.raise_runState (cause : FaultCause) (info : Word) : (s.raise cause info).runState = .faulted := rfl
@[simp] theorem State.raise_haltCause (cause : FaultCause) (info : Word) : (s.raise cause info).haltCause = s.haltCause := rfl
@[simp] theorem State.raise_faultCause (cause : FaultCause) (info : Word) : (s.raise cause info).faultCause = cause := rfl
@[simp] theorem State.raise_faultPc (cause : FaultCause) (info : Word) : (s.raise cause info).faultPc = s.pc := rfl
@[simp] theorem State.raise_faultInfo (cause : FaultCause) (info : Word) : (s.raise cause info).faultInfo = info := rfl
@[simp] theorem State.raise_trace (cause : FaultCause) (info : Word) : (s.raise cause info).trace = s.trace := rfl
@[simp] theorem State.raise_params (cause : FaultCause) (info : Word) : (s.raise cause info).params = s.params := rfl
@[simp] theorem State.raise_hostEvents (cause : FaultCause) (info : Word) : (s.raise cause info).hostEvents = s.hostEvents := rfl
@[simp] theorem State.raise_reg (cause : FaultCause) (info : Word) (j : RegIdx) : (s.raise cause info).reg j = s.reg j := rfl

/-! ### Registers: read after write -/

@[simp] theorem State.reg_setReg_same (i : RegIdx) (v : Value) : (s.setReg i v).reg i = v := by
  simp [State.reg, State.setReg]

theorem State.reg_setReg_other (i j : RegIdx) (v : Value) (h : j ≠ i) : (s.setReg i v).reg j = s.reg j := by
  have hne : i.val ≠ j.val := fun e => h (Fin.ext e.symm)
  simp [State.reg, State.setReg, hne]

/-! ### The state after reset -/

@[simp] theorem State.reg_resetWith (p : Params) (h : List HostEvent) (i : RegIdx) : (State.resetWith p h).reg i = 0 := by
  simp [State.reg, State.resetWith]

@[simp] theorem State.resetWith_pc (p : Params) (h : List HostEvent) : (State.resetWith p h).pc = resetPc := rfl
@[simp] theorem State.resetWith_stack (p : Params) (h : List HostEvent) : (State.resetWith p h).stack = [] := rfl
@[simp] theorem State.resetWith_inputQueue (p : Params) (h : List HostEvent) : (State.resetWith p h).inputQueue = [] := rfl
@[simp] theorem State.resetWith_mem (p : Params) (h : List HostEvent) : (State.resetWith p h).mem = [] := rfl
@[simp] theorem State.resetWith_memLen (p : Params) (h : List HostEvent) : (State.resetWith p h).memLen = 0 := rfl
@[simp] theorem State.resetWith_runState (p : Params) (h : List HostEvent) : (State.resetWith p h).runState = .load := rfl
@[simp] theorem State.resetWith_haltCause (p : Params) (h : List HostEvent) : (State.resetWith p h).haltCause = .none := rfl
@[simp] theorem State.resetWith_faultCause (p : Params) (h : List HostEvent) : (State.resetWith p h).faultCause = .none := rfl
@[simp] theorem State.resetWith_faultPc (p : Params) (h : List HostEvent) : (State.resetWith p h).faultPc = 0 := rfl
@[simp] theorem State.resetWith_faultInfo (p : Params) (h : List HostEvent) : (State.resetWith p h).faultInfo = 0 := rfl
@[simp] theorem State.resetWith_trace (p : Params) (h : List HostEvent) : (State.resetWith p h).trace = [] := rfl
@[simp] theorem State.resetWith_params (p : Params) (h : List HostEvent) : (State.resetWith p h).params = p := rfl
@[simp] theorem State.resetWith_hostEvents (p : Params) (h : List HostEvent) : (State.resetWith p h).hostEvents = h := rfl

end Sys2Proof.Machine
end

