-- ==== Sys2Proof/Laws/Operands.lean ====
section
/-! SUPPORT. What operand resolution can answer, and what the shared shapes over it can do. -/

namespace Sys2Proof.Machine

/-! ### rvalue and lvalue -/

@[simp] theorem rvalue_lit (v : Value) (s : State) : rvalue (.lit v) s = .ok v := rfl
@[simp] theorem rvalue_reg (i : RegIdx) (s : State) : rvalue (.reg i) s = .ok (s.reg i) := rfl
@[simp] theorem rvalue_invalid (w : Word) (s : State) : rvalue (.invalid w) s = .error (.invalidOperand, w) := rfl

/-- A register reference names its register (R105). -/
@[simp] theorem lvalue_reg (i : RegIdx) : lvalue (.reg i) = .ok i := by
  revert i; decide

/-- A literal 0..7 names that register, by the modulo rule (R105, decision D7). -/
theorem lvalue_lit_small (v : Value) (h : v.toNat < 8) : lvalue (.lit v) = .ok ⟨v.toNat, h⟩ := by
  have hv : v.toNat % 32768 = v.toNat := Nat.mod_eq_of_lt (by omega)
  simp [lvalue, Operand.toWord, BitVec.toNat_setWidth, h, hv]

/-- A faulting read operand is an invalid word, and reports it (R104). -/
theorem rvalue_error {o : Operand} {s : State} {e : Raised} (h : rvalue o s = .error e) :
    ∃ w, o = .invalid w ∧ e = (.invalidOperand, w) := by
  cases o with
  | lit v => cases h
  | reg i => cases h
  | invalid w => exact ⟨w, rfl, by cases h; rfl⟩

/-- A faulting write operand reports INVALID_REGISTER and its word (R105). -/
theorem lvalue_error {o : Operand} {e : Raised} (h : lvalue o = .error e) : e = (.invalidRegister, o.toWord) := by
  unfold lvalue at h
  split at h
  · cases h
  · cases h; rfl

/-! ### The resolving shapes: forward -/

theorem withRead_ok {o : Operand} {s : State} {v : Value} (h : rvalue o s = .ok v) (k : Value → Result) :
    withRead o s k = k v := by simp [withRead, h]

theorem withRead_error {o : Operand} {s : State} {e : Raised} (h : rvalue o s = .error e) (k : Value → Result) :
    withRead o s k = .next (s.raise e.1 e.2) := by simp [withRead, h]

theorem withWrite_ok {o : Operand} {s : State} {i : RegIdx} (h : lvalue o = .ok i) (k : RegIdx → Result) :
    withWrite o s k = k i := by simp [withWrite, h]

theorem withWrite_error {o : Operand} {s : State} {e : Raised} (h : lvalue o = .error e) (k : RegIdx → Result) :
    withWrite o s k = .next (s.raise e.1 e.2) := by simp [withWrite, h]

theorem withRegisterValue_fits {w : Word} (h : w.toNat ≤ 32767) (s : State) (k : Value → Result) :
    withRegisterValue w s k = k (w.setWidth 15) := by
  simp [withRegisterValue, Nat.not_lt.2 h]

theorem withRegisterValue_over {w : Word} (h : 32767 < w.toNat) (s : State) (k : Value → Result) :
    withRegisterValue w s k = .next (s.raise .wordRange w) := by
  simp [withRegisterValue, h]

/-! ### The resolving shapes: everything a next state can be -/

theorem withRead_next {o : Operand} {s t : State} {k : Value → Result} (h : withRead o s k = .next t) :
    (∃ v, rvalue o s = .ok v ∧ k v = .next t) ∨ (∃ e, rvalue o s = .error e ∧ t = s.raise e.1 e.2) := by
  cases hr : rvalue o s with
  | ok v => exact .inl ⟨v, rfl, by rwa [withRead_ok hr] at h⟩
  | error e => rw [withRead_error hr] at h; exact .inr ⟨e, rfl, by cases h; rfl⟩

theorem withWrite_next {o : Operand} {s t : State} {k : RegIdx → Result} (h : withWrite o s k = .next t) :
    (∃ i, lvalue o = .ok i ∧ k i = .next t) ∨ (∃ e, lvalue o = .error e ∧ t = s.raise e.1 e.2) := by
  cases hl : lvalue o with
  | ok i => exact .inl ⟨i, rfl, by rwa [withWrite_ok hl] at h⟩
  | error e => rw [withWrite_error hl] at h; exact .inr ⟨e, rfl, by cases h; rfl⟩

theorem withRegisterValue_next {w : Word} {s t : State} {k : Value → Result} (h : withRegisterValue w s k = .next t) :
    (w.toNat ≤ 32767 ∧ k (w.setWidth 15) = .next t) ∨ (32767 < w.toNat ∧ t = s.raise .wordRange w) := by
  by_cases hw : 32767 < w.toNat
  · rw [withRegisterValue_over hw] at h
    exact .inr ⟨hw, by cases h; rfl⟩
  · rw [withRegisterValue_fits (Nat.not_lt.1 hw)] at h
    exact .inl ⟨Nat.not_lt.1 hw, h⟩

end Sys2Proof.Machine
end

