-- ==== Sys2Proof/Laws/Updates.lean ====
section
/-! SUPPORT. The updates above the single fields, field by field: a branch, a refill, an unknown-opcode skip. -/

namespace Sys2Proof.Machine

variable (s : State)

/-! ### branchIf: only pc -/

@[simp] theorem branchIf_regs (taken : Bool) (target : Value) : (branchIf taken target s).regs = s.regs := by
  cases taken <;> rfl
@[simp] theorem branchIf_stack (taken : Bool) (target : Value) : (branchIf taken target s).stack = s.stack := by
  cases taken <;> rfl
@[simp] theorem branchIf_inputQueue (taken : Bool) (target : Value) : (branchIf taken target s).inputQueue = s.inputQueue := by
  cases taken <;> rfl
@[simp] theorem branchIf_mem (taken : Bool) (target : Value) : (branchIf taken target s).mem = s.mem := by
  cases taken <;> rfl
@[simp] theorem branchIf_memLen (taken : Bool) (target : Value) : (branchIf taken target s).memLen = s.memLen := by
  cases taken <;> rfl
@[simp] theorem branchIf_runState (taken : Bool) (target : Value) : (branchIf taken target s).runState = s.runState := by
  cases taken <;> rfl
@[simp] theorem branchIf_haltCause (taken : Bool) (target : Value) : (branchIf taken target s).haltCause = s.haltCause := by
  cases taken <;> rfl
@[simp] theorem branchIf_faultCause (taken : Bool) (target : Value) : (branchIf taken target s).faultCause = s.faultCause := by
  cases taken <;> rfl
@[simp] theorem branchIf_faultPc (taken : Bool) (target : Value) : (branchIf taken target s).faultPc = s.faultPc := by
  cases taken <;> rfl
@[simp] theorem branchIf_faultInfo (taken : Bool) (target : Value) : (branchIf taken target s).faultInfo = s.faultInfo := by
  cases taken <;> rfl
@[simp] theorem branchIf_trace (taken : Bool) (target : Value) : (branchIf taken target s).trace = s.trace := by
  cases taken <;> rfl
@[simp] theorem branchIf_params (taken : Bool) (target : Value) : (branchIf taken target s).params = s.params := by
  cases taken <;> rfl
@[simp] theorem branchIf_hostEvents (taken : Bool) (target : Value) : (branchIf taken target s).hostEvents = s.hostEvents := by
  cases taken <;> rfl
@[simp] theorem branchIf_reg (taken : Bool) (target : Value) (j : RegIdx) :
    (branchIf taken target s).reg j = s.reg j := by cases taken <;> rfl
theorem branchIf_pc (taken : Bool) (target : Value) :
    (branchIf taken target s).pc = if taken then target.setWidth 16 else s.pc + 3 := by cases taken <;> rfl

/-! ### refill: queue and RUN_STATE -/

@[simp] theorem refill_pc (codes : List Word) : (refill codes s).pc = s.pc := rfl
@[simp] theorem refill_regs (codes : List Word) : (refill codes s).regs = s.regs := rfl
@[simp] theorem refill_stack (codes : List Word) : (refill codes s).stack = s.stack := rfl
@[simp] theorem refill_inputQueue (codes : List Word) : (refill codes s).inputQueue = codes ++ [s.params.lineTerminator] := rfl
@[simp] theorem refill_mem (codes : List Word) : (refill codes s).mem = s.mem := rfl
@[simp] theorem refill_memLen (codes : List Word) : (refill codes s).memLen = s.memLen := rfl
@[simp] theorem refill_runState (codes : List Word) : (refill codes s).runState = .running := rfl
@[simp] theorem refill_haltCause (codes : List Word) : (refill codes s).haltCause = s.haltCause := rfl
@[simp] theorem refill_faultCause (codes : List Word) : (refill codes s).faultCause = s.faultCause := rfl
@[simp] theorem refill_faultPc (codes : List Word) : (refill codes s).faultPc = s.faultPc := rfl
@[simp] theorem refill_faultInfo (codes : List Word) : (refill codes s).faultInfo = s.faultInfo := rfl
@[simp] theorem refill_trace (codes : List Word) : (refill codes s).trace = s.trace := rfl
@[simp] theorem refill_params (codes : List Word) : (refill codes s).params = s.params := rfl
@[simp] theorem refill_hostEvents (codes : List Word) : (refill codes s).hostEvents = s.hostEvents := rfl
@[simp] theorem refill_reg (codes : List Word) (j : RegIdx) : (refill codes s).reg j = s.reg j := rfl

/-! ### skipUnknown: trace and pc -/

@[simp] theorem skipUnknown_pc (op : Word) : (skipUnknown op s).pc = s.pc + 1 := rfl
@[simp] theorem skipUnknown_regs (op : Word) : (skipUnknown op s).regs = s.regs := rfl
@[simp] theorem skipUnknown_stack (op : Word) : (skipUnknown op s).stack = s.stack := rfl
@[simp] theorem skipUnknown_inputQueue (op : Word) : (skipUnknown op s).inputQueue = s.inputQueue := rfl
@[simp] theorem skipUnknown_mem (op : Word) : (skipUnknown op s).mem = s.mem := rfl
@[simp] theorem skipUnknown_memLen (op : Word) : (skipUnknown op s).memLen = s.memLen := rfl
@[simp] theorem skipUnknown_runState (op : Word) : (skipUnknown op s).runState = s.runState := rfl
@[simp] theorem skipUnknown_haltCause (op : Word) : (skipUnknown op s).haltCause = s.haltCause := rfl
@[simp] theorem skipUnknown_faultCause (op : Word) : (skipUnknown op s).faultCause = s.faultCause := rfl
@[simp] theorem skipUnknown_faultPc (op : Word) : (skipUnknown op s).faultPc = s.faultPc := rfl
@[simp] theorem skipUnknown_faultInfo (op : Word) : (skipUnknown op s).faultInfo = s.faultInfo := rfl
@[simp] theorem skipUnknown_trace (op : Word) : (skipUnknown op s).trace = s.trace ++ [.diag s.pc op] := rfl
@[simp] theorem skipUnknown_params (op : Word) : (skipUnknown op s).params = s.params := rfl
@[simp] theorem skipUnknown_hostEvents (op : Word) : (skipUnknown op s).hostEvents = s.hostEvents := rfl
@[simp] theorem skipUnknown_reg (op : Word) (j : RegIdx) : (skipUnknown op s).reg j = s.reg j := rfl

end Sys2Proof.Machine
end

