-- ==== Sys2Proof/Laws/Effects.lean ====
section
/-! SUPPORT. Everything an instruction's next state can be, said once: claims about all instructions take cases on `Effect`. -/

namespace Sys2Proof.Machine

/-! ### Operand faults -/

/-- The two causes an operand can raise. -/
def operandCauses : List FaultCause := [.invalidRegister, .invalidOperand]

/-- The causes an instruction's own conditions can raise (R240, item 5). -/
def ownCauses (i : Instr) : List FaultCause := (raisable i).filter fun c => !operandCauses.contains c

/-- The fault of the first faulting operand is INVALID_REGISTER of a write operand or INVALID_OPERAND of a read operand. -/
theorem firstOperandFault_some {i : Instr} {s : State} {e : Raised} (h : firstOperandFault i s = some e) :
    (∃ o, (OperandKind.write, o) ∈ i.operands ∧ lvalue o = .error e ∧ e.1 = .invalidRegister) ∨
      ∃ o, (OperandKind.read, o) ∈ i.operands ∧ rvalue o s = .error e ∧ e.1 = .invalidOperand := by
  obtain ⟨⟨kind, o⟩, hm, hf⟩ := List.exists_of_findSome?_eq_some h
  cases kind with
  | write =>
    cases hl : lvalue o with
    | ok A => simp [operandFault, hl] at hf
    | error e' =>
      obtain rfl : e' = e := by simpa [operandFault, hl] using hf
      exact .inl ⟨o, hm, hl, by rw [lvalue_error hl]⟩
  | read =>
    cases hr : rvalue o s with
    | ok A => simp [operandFault, hr] at hf
    | error e' =>
      obtain rfl : e' = e := by simpa [operandFault, hr] using hf
      obtain ⟨w, -, he⟩ := rvalue_error hr
      exact .inr ⟨o, hm, hr, by rw [he]⟩

/-- An instruction with a write operand can raise INVALID_REGISTER, one with a read operand INVALID_OPERAND. -/
theorem firstOperandFault_raisable {i : Instr} {s : State} {e : Raised} (h : firstOperandFault i s = some e) :
    e.1 ∈ raisable i ∧ e.1 ∈ operandCauses := by
  rcases firstOperandFault_some h with ⟨o, hm, -, he⟩ | ⟨o, hm, -, he⟩ <;> rw [he] <;>
    refine ⟨?_, by decide⟩ <;> cases i <;> simp [Instr.operands, raisable] at hm ⊢

/-! ### The effects -/

/-- The next states of an instruction: its first operand fault, a fault of its own conditions, or its own effect. -/
inductive Effect (s : State) : Instr → State → Prop where
  | operandFault {i : Instr} {e : Raised} (h : firstOperandFault i s = some e) : Effect s i (s.raise e.1 e.2)
  | raised {i : Instr} {cause : FaultCause} (info : Word) (h : cause ∈ ownCauses i) : Effect s i (s.raise cause info)
  | halt : Effect s .halt ((s.advance 1).halt .haltOpcode)
  | set {a b A B} (hA : lvalue a = .ok A) (hB : rvalue b s = .ok B) : Effect s (.set a b) ((s.setReg A B).advance 3)
  | push {a A} (hA : rvalue a s = .ok A) (hc : s.stackFull = false) :
      Effect s (.push a) ((s.push (A.setWidth 16)).advance 2)
  | pop {a A v rest} (hA : lvalue a = .ok A) (hs : s.stack = v :: rest) (hv : v.toNat ≤ 32767) :
      Effect s (.pop a) (((s.setStack rest).setReg A (v.setWidth 15)).advance 2)
  | eq {a b c A B C} (hA : lvalue a = .ok A) (hB : rvalue b s = .ok B) (hC : rvalue c s = .ok C) :
      Effect s (.eq a b c) ((s.setReg A (truthValue (B == C))).advance 4)
  | gt {a b c A B C} (hA : lvalue a = .ok A) (hB : rvalue b s = .ok B) (hC : rvalue c s = .ok C) :
      Effect s (.gt a b c) ((s.setReg A (truthValue (decide (B.toNat > C.toNat)))).advance 4)
  | jmp {a A} (hA : rvalue a s = .ok A) : Effect s (.jmp a) (s.setPc (A.setWidth 16))
  | jt {a b A B} (hA : rvalue a s = .ok A) (hB : rvalue b s = .ok B) : Effect s (.jt a b) (branchIf (isNonZero A) B s)
  | jf {a b A B} (hA : rvalue a s = .ok A) (hB : rvalue b s = .ok B) : Effect s (.jf a b) (branchIf (!isNonZero A) B s)
  | add {a b c A B C} (hA : lvalue a = .ok A) (hB : rvalue b s = .ok B) (hC : rvalue c s = .ok C) :
      Effect s (.add a b c) ((s.setReg A (aluAdd B C)).advance 4)
  | mult {a b c A B C} (hA : lvalue a = .ok A) (hB : rvalue b s = .ok B) (hC : rvalue c s = .ok C) :
      Effect s (.mult a b c) ((s.setReg A (aluMult B C)).advance 4)
  | mod {a b c A B C} (hA : lvalue a = .ok A) (hB : rvalue b s = .ok B) (hC : rvalue c s = .ok C) (h0 : C.toNat ≠ 0) :
      Effect s (.mod a b c) ((s.setReg A (aluMod B C)).advance 4)
  | and {a b c A B C} (hA : lvalue a = .ok A) (hB : rvalue b s = .ok B) (hC : rvalue c s = .ok C) :
      Effect s (.and a b c) ((s.setReg A (B &&& C)).advance 4)
  | or {a b c A B C} (hA : lvalue a = .ok A) (hB : rvalue b s = .ok B) (hC : rvalue c s = .ok C) :
      Effect s (.or a b c) ((s.setReg A (B ||| C)).advance 4)
  | not {a b A B} (hA : lvalue a = .ok A) (hB : rvalue b s = .ok B) :
      Effect s (.not a b) ((s.setReg A (aluNot B)).advance 3)
  | rmem {a b A B} (hA : lvalue a = .ok A) (hB : rvalue b s = .ok B) (hm : s.inMemory B.toNat = true)
      (hv : (s.mem.readWord B.toNat).toNat ≤ 32767) :
      Effect s (.rmem a b) ((s.setReg A ((s.mem.readWord B.toNat).setWidth 15)).advance 3)
  | wmem {a b A B} (hA : rvalue a s = .ok A) (hB : rvalue b s = .ok B) (hm : s.inMemory A.toNat = true) :
      Effect s (.wmem a b) ((s.setMem (s.mem.writeWord A.toNat (B.setWidth 16))).advance 3)
  | call {a A} (hA : rvalue a s = .ok A) (hc : s.stackFull = false) :
      Effect s (.call a) ((s.push (s.pc + 2)).setPc (A.setWidth 16))
  | ret {target rest} (hs : s.stack = target :: rest) : Effect s .ret ((s.setStack rest).setPc target)
  | out {a A} (hA : rvalue a s = .ok A) : Effect s (.out a) ((s.emit (.out A)).advance 2)
  | inWait {a A} (hA : lvalue a = .ok A) (hq : s.inputQueue = []) :
      Effect s (.in_ a) ((s.emit .lineRequest).setRunState .waitInput)
  | inTake {a A c q} (hA : lvalue a = .ok A) (hq : s.inputQueue = c :: q) (hv : c.toNat ≤ 32767) :
      Effect s (.in_ a) (((s.setQueue q).setReg A (c.setWidth 15)).advance 2)
  | noop : Effect s .noop (s.advance 1)

/-! ### The shared shapes -/

theorem unaryToReg_next {f : Value → Value} {a b : Operand} {s t : State} (h : unaryToReg f a b s = .next t) :
    (∃ A B, lvalue a = .ok A ∧ rvalue b s = .ok B ∧ t = (s.setReg A (f B)).advance 3) ∨
      ∃ e, [(OperandKind.write, a), (.read, b)].findSome? (operandFault s) = some e ∧ t = s.raise e.1 e.2 := by
  rcases withWrite_next h with ⟨A, hA, h⟩ | ⟨e, hA, rfl⟩
  · rcases withRead_next h with ⟨B, hB, h⟩ | ⟨e, hB, rfl⟩
    · exact .inl ⟨A, B, hA, hB, by cases h; rfl⟩
    · exact .inr ⟨e, by simp [operandFault, hA, hB], rfl⟩
  · exact .inr ⟨e, by simp [operandFault, hA], rfl⟩

theorem withReads2_next {a b : Operand} {s t : State} {k : Value → Value → Result} (h : withReads2 a b s k = .next t) :
    (∃ A B, rvalue a s = .ok A ∧ rvalue b s = .ok B ∧ k A B = .next t) ∨
      ∃ e, [(OperandKind.read, a), (.read, b)].findSome? (operandFault s) = some e ∧ t = s.raise e.1 e.2 := by
  rcases withRead_next h with ⟨A, hA, h⟩ | ⟨e, hA, rfl⟩
  · rcases withRead_next h with ⟨B, hB, h⟩ | ⟨e, hB, rfl⟩
    · exact .inl ⟨A, B, hA, hB, h⟩
    · exact .inr ⟨e, by simp [operandFault, hA, hB], rfl⟩
  · exact .inr ⟨e, by simp [operandFault, hA], rfl⟩

/-- The operand shape of the three-operand instructions: a destination, then two values. -/
theorem withWriteReads2_next {a b c : Operand} {s t : State} {k : RegIdx → Value → Value → Result}
    (h : withWrite a s (fun A => withReads2 b c s (k A)) = .next t) :
    (∃ A B C, lvalue a = .ok A ∧ rvalue b s = .ok B ∧ rvalue c s = .ok C ∧ k A B C = .next t) ∨
      ∃ e, [(OperandKind.write, a), (.read, b), (.read, c)].findSome? (operandFault s) = some e ∧ t = s.raise e.1 e.2 := by
  rcases withWrite_next h with ⟨A, hA, h⟩ | ⟨e, hA, rfl⟩
  · rcases withReads2_next h with ⟨B, C, hB, hC, h⟩ | ⟨e, he, rfl⟩
    · exact .inl ⟨A, B, C, hA, hB, hC, h⟩
    · exact .inr ⟨e, by rw [List.findSome?_cons]; simpa [operandFault, hA] using he, rfl⟩
  · exact .inr ⟨e, by simp [operandFault, hA], rfl⟩

theorem binaryToReg_next {f : Value → Value → Value} {a b c : Operand} {s t : State}
    (h : binaryToReg f a b c s = .next t) :
    (∃ A B C, lvalue a = .ok A ∧ rvalue b s = .ok B ∧ rvalue c s = .ok C ∧ t = (s.setReg A (f B C)).advance 4) ∨
      ∃ e, [(OperandKind.write, a), (.read, b), (.read, c)].findSome? (operandFault s) = some e ∧ t = s.raise e.1 e.2 := by
  rcases withWriteReads2_next h with ⟨A, B, C, hA, hB, hC, h⟩ | h
  · exact .inl ⟨A, B, C, hA, hB, hC, by cases h; rfl⟩
  · exact .inr h

theorem withRead_next_effect {i : Instr} {a : Operand} {s t : State} {k : Value → Result} (hi : i.operands = [(.read, a)])
    (h : withRead a s k = .next t) : (∃ A, rvalue a s = .ok A ∧ k A = .next t) ∨ Effect s i t := by
  rcases withRead_next h with h | ⟨e, hA, rfl⟩
  · exact .inl h
  · exact .inr (.operandFault (by simp [firstOperandFault, hi, operandFault, hA]))

theorem withWrite_next_effect {i : Instr} {a : Operand} {s t : State} {k : RegIdx → Result} (hi : i.operands = [(.write, a)])
    (h : withWrite a s k = .next t) : (∃ A, lvalue a = .ok A ∧ k A = .next t) ∨ Effect s i t := by
  rcases withWrite_next h with h | ⟨e, hA, rfl⟩
  · exact .inl h
  · exact .inr (.operandFault (by simp [firstOperandFault, hi, operandFault, hA]))

/-! ### The inversion of exec -/

/-- Every next state of every instruction is one of its effects. -/
theorem exec_effect {i : Instr} {s t : State} (h : exec i s = .next t) : Effect s i t := by
  cases i with
  | halt => cases h; exact .halt
  | noop => cases h; exact .noop
  | set a b =>
    rcases unaryToReg_next h with ⟨A, B, hA, hB, rfl⟩ | ⟨e, he, rfl⟩
    · exact .set hA hB
    · exact .operandFault he
  | not a b =>
    rcases unaryToReg_next h with ⟨A, B, hA, hB, rfl⟩ | ⟨e, he, rfl⟩
    · exact .not hA hB
    · exact .operandFault he
  | eq a b c =>
    rcases binaryToReg_next h with ⟨A, B, C, hA, hB, hC, rfl⟩ | ⟨e, he, rfl⟩
    · exact .eq hA hB hC
    · exact .operandFault he
  | gt a b c =>
    rcases binaryToReg_next h with ⟨A, B, C, hA, hB, hC, rfl⟩ | ⟨e, he, rfl⟩
    · exact .gt hA hB hC
    · exact .operandFault he
  | add a b c =>
    rcases binaryToReg_next h with ⟨A, B, C, hA, hB, hC, rfl⟩ | ⟨e, he, rfl⟩
    · exact .add hA hB hC
    · exact .operandFault he
  | mult a b c =>
    rcases binaryToReg_next h with ⟨A, B, C, hA, hB, hC, rfl⟩ | ⟨e, he, rfl⟩
    · exact .mult hA hB hC
    · exact .operandFault he
  | and a b c =>
    rcases binaryToReg_next h with ⟨A, B, C, hA, hB, hC, rfl⟩ | ⟨e, he, rfl⟩
    · exact .and hA hB hC
    · exact .operandFault he
  | or a b c =>
    rcases binaryToReg_next h with ⟨A, B, C, hA, hB, hC, rfl⟩ | ⟨e, he, rfl⟩
    · exact .or hA hB hC
    · exact .operandFault he
  | mod a b c =>
    rcases withWriteReads2_next h with ⟨A, B, C, hA, hB, hC, h⟩ | ⟨e, he, rfl⟩
    · by_cases h0 : C.toNat = 0
      · rw [if_pos h0] at h; cases h; exact .raised _ (by simp [ownCauses, raisable, operandCauses])
      · rw [if_neg h0] at h; cases h; exact .mod hA hB hC h0
    · exact .operandFault he
  | push a =>
    rcases withRead_next_effect (i := .push a) rfl h with ⟨A, hA, h⟩ | he
    · cases hf : s.stackFull <;> simp only [hf, if_true, Bool.false_eq_true, if_false] at h <;> cases h
      · exact .push hA hf
      · exact .raised _ (by simp [ownCauses, raisable, operandCauses])
    · exact he
  | call a =>
    rcases withRead_next_effect (i := .call a) rfl h with ⟨A, hA, h⟩ | he
    · cases hf : s.stackFull <;> simp only [hf, if_true, Bool.false_eq_true, if_false] at h <;> cases h
      · exact .call hA hf
      · exact .raised _ (by simp [ownCauses, raisable, operandCauses])
    · exact he
  | pop a =>
    rcases withWrite_next_effect (i := .pop a) rfl h with ⟨A, hA, h⟩ | he
    · cases hs : s.stack with
      | nil => rw [hs] at h; cases h; exact .raised _ (by simp [ownCauses, raisable, operandCauses])
      | cons v rest =>
        rw [hs] at h
        rcases withRegisterValue_next h with ⟨hv, h⟩ | ⟨-, rfl⟩
        · cases h; exact .pop hA hs hv
        · exact .raised _ (by simp [ownCauses, raisable, operandCauses])
    · exact he
  | ret =>
    cases hs : s.stack with
    | nil => simp only [exec, execRet, hs] at h; cases h; exact .raised _ (by simp [ownCauses, raisable, operandCauses])
    | cons v rest => simp only [exec, execRet, hs] at h; cases h; exact .ret hs
  | jmp a =>
    rcases withRead_next_effect (i := .jmp a) rfl h with ⟨A, hA, h⟩ | he
    · cases h; exact .jmp hA
    · exact he
  | out a =>
    rcases withRead_next_effect (i := .out a) rfl h with ⟨A, hA, h⟩ | he
    · cases h; exact .out hA
    · exact he
  | jt a b =>
    rcases withReads2_next h with ⟨A, B, hA, hB, h⟩ | ⟨e, he, rfl⟩
    · cases h; exact .jt hA hB
    · exact .operandFault he
  | jf a b =>
    rcases withReads2_next h with ⟨A, B, hA, hB, h⟩ | ⟨e, he, rfl⟩
    · cases h; exact .jf hA hB
    · exact .operandFault he
  | rmem a b =>
    rcases withWrite_next h with ⟨A, hA, h⟩ | ⟨e, hA, rfl⟩
    · rcases withRead_next h with ⟨B, hB, h⟩ | ⟨e, hB, rfl⟩
      · cases hm : s.inMemory B.toNat <;> simp only [hm, if_true, Bool.false_eq_true, if_false] at h
        · cases h; exact .raised _ (by simp [ownCauses, raisable, operandCauses])
        · rcases withRegisterValue_next h with ⟨hv, h⟩ | ⟨-, rfl⟩
          · cases h; exact .rmem hA hB hm hv
          · exact .raised _ (by simp [ownCauses, raisable, operandCauses])
      · exact .operandFault (by simp [firstOperandFault, Instr.operands, operandFault, hA, hB])
    · exact .operandFault (by simp [firstOperandFault, Instr.operands, operandFault, hA])
  | wmem a b =>
    rcases withReads2_next h with ⟨A, B, hA, hB, h⟩ | ⟨e, he, rfl⟩
    · cases hm : s.inMemory A.toNat <;> simp only [hm, if_true, Bool.false_eq_true, if_false] at h <;> cases h
      · exact .raised _ (by simp [ownCauses, raisable, operandCauses])
      · exact .wmem hA hB hm
    · exact .operandFault he
  | in_ a =>
    rcases withWrite_next_effect (i := .in_ a) rfl h with ⟨A, hA, h⟩ | he
    · cases hq : s.inputQueue with
      | nil => rw [hq] at h; cases h; exact .inWait hA hq
      | cons c q =>
        rw [hq] at h
        rcases withRegisterValue_next h with ⟨hv, h⟩ | ⟨-, rfl⟩
        · cases h; exact .inTake hA hq hv
        · exact .raised _ (by simp [ownCauses, raisable, operandCauses])
    · exact he

end Sys2Proof.Machine
end

