-- ==== Sys2Proof/Laws/Engine.lean ====
section
/-! SUPPORT. What a fetch finds, and everything a step's next state can be. -/

namespace Sys2Proof.Machine

/-! ### Fetch -/

theorem State.inMemory_iff {s : State} {a : Nat} : s.inMemory a = true ↔ a < s.memLen.toNat := by
  simp [State.inMemory]

theorem State.inMemory_eq_false {s : State} {a : Nat} : s.inMemory a = false ↔ s.memLen.toNat ≤ a := by
  simp [State.inMemory]

/-- Of `n` words asked for, those below N come. -/
theorem length_fetchWords (s : State) (n p : Nat) : (fetchWords s n p).length = min n (s.memLen.toNat - p) := by
  induction n generalizing p with
  | zero => simp [fetchWords]
  | succ n ih =>
    by_cases h : p < s.memLen.toNat
    · simp [fetchWords, State.inMemory_iff.2 h, ih]; omega
    · simp [fetchWords, State.inMemory_eq_false.2 (Nat.not_lt.1 h)]; omega

/-- The first word fetched is the one at `p`. -/
theorem fetchWords_cons {s : State} {p : Nat} (h : p < s.memLen.toNat) (n : Nat) :
    fetchWords s (n + 1) p = s.mem.readWord p :: fetchWords s n (p + 1) := by
  simp [fetchWords, State.inMemory_iff.2 h]

theorem fetchWords_nil {s : State} {p : Nat} (h : s.memLen.toNat ≤ p) (n : Nat) : fetchWords s n p = [] := by
  cases n <;> simp [fetchWords, State.inMemory_eq_false.2 h]

/-- Words that stand in memory are the beginning of what is fetched. -/
theorem fetchWords_eq_append {s : State} {ws : List Word} {n p : Nat} (hn : ws.length ≤ n)
    (hlen : p + ws.length ≤ s.memLen.toNat) (hws : ∀ j w, ws[j]? = some w → s.mem.readWord (p + j) = w) :
    fetchWords s n p = ws ++ fetchWords s (n - ws.length) (p + ws.length) := by
  induction ws generalizing n p with
  | nil => simp
  | cons w ws ih =>
    obtain ⟨m, rfl⟩ : ∃ m, n = m + 1 := ⟨n - 1, by simp at hn; omega⟩
    have h0 : s.mem.readWord p = w := by simpa using hws 0 w rfl
    have h1 := ih (n := m) (p := p + 1) (by simpa using hn) (by simp at hlen; omega)
      (fun j v hv => by rw [← hws (j + 1) v (by simpa using hv)]; congr 1; omega)
    rw [fetchWords_cons (by simp at hlen; omega), h0, h1]
    have e1 : m + 1 - (w :: ws).length = m - ws.length := by simp
    have e2 : p + (w :: ws).length = p + 1 + ws.length := by simp; omega
    rw [e1, e2]; rfl

/-- A fetch depends on memory, N and pc alone. -/
theorem fetch_congr {s t : State} (hm : t.mem = s.mem) (hn : t.memLen = s.memLen) (hp : t.pc = s.pc) : fetch t = fetch s := by
  have hw : ∀ n p, fetchWords t n p = fetchWords s n p := by
    intro n
    induction n with
    | zero => intro p; rfl
    | succ n ih =>
      intro p
      have hin : t.inMemory p = s.inMemory p := by rw [State.inMemory, State.inMemory, hn]
      rw [fetchWords, fetchWords, hin, hm, ih]
  simp only [fetch, hw, hp]

/-! ### The step -/

/-- On the CORE's turn nothing but a `quiet` entry of the host goes. -/
theorem CoreTurn.eq_setHost {s u : State} (h : CoreTurn s u) : u = s.setHost u.hostEvents := by
  rcases h with ⟨_, ⟨_, rfl⟩ | ⟨_, _, _, rfl⟩ | ⟨_, _, rfl⟩⟩ <;> rfl

/-- The CORE fetches the same from either state. -/
theorem CoreTurn.fetch_eq {s u : State} (h : CoreTurn s u) : fetch u = fetch s := by
  rw [h.eq_setHost]
  exact fetch_congr rfl rfl rfl

/-- On the CORE's turn the step is what it does with what it fetched. -/
theorem CoreTurn.step_eq {s u : State} (h : CoreTurn s u) : step s = runFetched exec u (fetch s) := by
  rw [← h.fetch_eq]
  rcases h with ⟨hr, ⟨he, rfl⟩ | ⟨_, _, he, rfl⟩ | ⟨_, he, rfl⟩⟩ <;> simp [step, engineStep, coreStep, he, hr]

/-- Everything a step's next state can be: the CORE's own step on what it fetched, or one of the host's events. -/
theorem step_next {s t : State} (h : step s = .next t) :
    (∃ s', (s' = s ∨ ∃ rest, s.hostEvents = .quiet :: rest ∧ s' = s.setHost rest) ∧ s.runState = .running ∧
      (∀ rest, s.hostEvents ≠ .reset :: rest) ∧ runFetched exec s' (fetch s) = .next t) ∨
    (∃ rest, s.hostEvents = .reset :: rest ∧ t = (s.setHost rest).resetRun) ∨
    (∃ image rest, s.hostEvents = .load image :: rest ∧ s.runState = .load ∧ t = loadImage image (s.setHost rest)) ∨
    (∃ codes rest, (s.hostEvents = .line codes :: rest ∨ s.hostEvents = .answer codes :: rest) ∧ s.runState = .waitInput ∧
      lineArrives exec codes (s.setHost rest) = .next t) ∨
    (∃ e rest, s.hostEvents = e :: rest ∧ (∀ r, s.hostEvents ≠ .reset :: r) ∧ t = s.setHost rest) := by
  have core : ∀ s' : State, coreStep exec s' = .next t → s'.runState = .running ∧ runFetched exec s' (fetch s') = .next t := by
    intro s' h'
    unfold coreStep at h'
    split at h' <;> first | cases h' | exact ⟨‹_›, h'⟩
  unfold step engineStep at h
  split at h
  · rename_i he
    obtain ⟨hr, hf⟩ := core s h
    exact .inl ⟨s, .inl rfl, hr, by simp [he], hf⟩
  · rename_i rest he
    cases h; exact .inr (.inl ⟨rest, he, rfl⟩)
  · rename_i image rest he
    unfold hostLoad at h
    split at h
    · cases h; exact .inr (.inr (.inl ⟨image, rest, he, by assumption, rfl⟩))
    · cases h
  · rename_i codes rest he
    split at h
    · exact .inr (.inr (.inr (.inl ⟨codes, rest, .inl he, ‹_›, h⟩)))
    · cases h; exact .inr (.inr (.inr (.inr ⟨_, rest, he, by simp [he], rfl⟩)))
  · rename_i codes rest he
    split at h
    · exact .inr (.inr (.inr (.inl ⟨codes, rest, .inr he, ‹_›, h⟩)))
    · obtain ⟨hr, hf⟩ := core s h
      exact .inl ⟨s, .inl rfl, hr, by simp [he], hf⟩
  · rename_i rest he
    split at h
    · obtain ⟨hr, hf⟩ := core _ h
      exact .inl ⟨_, .inr ⟨rest, he, rfl⟩, ‹_›, by simp [he], hf⟩
    · cases h; exact .inr (.inr (.inr (.inr ⟨_, rest, he, by simp [he], rfl⟩)))

/-- Everything the arrival of a line can lead to. -/
theorem lineArrives_next {codes : List Word} {s t : State} (h : lineArrives exec codes s = .next t) :
    (lineTooLong codes s = true ∧ t = s.raise .inputOverflow (BitVec.ofNat 16 (min codes.length 65535))) ∨
    (lineTooLong codes s = false ∧ ∃ a, fetch s = .instr (.in_ a) ∧ exec (.in_ a) (refill codes s) = .next t) := by
  unfold lineArrives at h
  cases hl : lineTooLong codes s
  · rw [hl, if_neg Bool.false_ne_true] at h
    have hf : fetch (refill codes s) = fetch s := fetch_congr rfl rfl rfl
    rw [hf] at h
    split at h
    · exact .inr ⟨rfl, _, ‹_›, h⟩
    · cases h
  · rw [hl, if_pos rfl] at h
    cases h; exact .inl ⟨rfl, rfl⟩

end Sys2Proof.Machine
end

