-- ==== Sys2Proof/Laws/Memory.lean ====
section
/-! SUPPORT. The laws of memory: what a byte or a word reads after a write, and that every operation keeps the canonical form. -/

namespace Sys2Proof

/-! ### Bytes and words -/

@[simp] theorem wordOfBytes_low_high (w : Word) : wordOfBytes (lowByte w) (highByte w) = w := by
  apply BitVec.eq_of_getLsbD_eq
  intro i hi
  simp only [wordOfBytes, lowByte, highByte, BitVec.getLsbD_append, BitVec.getLsbD_extractLsb']
  by_cases h : i < 8
  · simp [h]
  · have h8 : i - 8 < 8 := by omega
    have e : 8 + (i - 8) = i := by omega
    simp [h, h8, e]

@[simp] theorem lowByte_wordOfBytes (lo hi : Byte) : lowByte (wordOfBytes lo hi) = lo := by
  apply BitVec.eq_of_getLsbD_eq
  intro i h
  simp only [wordOfBytes, lowByte, BitVec.getLsbD_extractLsb', BitVec.getLsbD_append]
  simp [h]

@[simp] theorem highByte_wordOfBytes (lo hi : Byte) : highByte (wordOfBytes lo hi) = hi := by
  apply BitVec.eq_of_getLsbD_eq
  intro i h
  simp only [wordOfBytes, highByte, BitVec.getLsbD_extractLsb', BitVec.getLsbD_append]
  simp [h]

/-- `hi:lo` of R7. -/
theorem wordOfBytes_toNat (lo hi : Byte) : (wordOfBytes lo hi).toNat = hi.toNat * 256 + lo.toNat := by
  have h := lo.isLt
  rw [wordOfBytes, BitVec.toNat_append, ← Nat.shiftLeft_add_eq_or_of_lt (b := lo.toNat) h, Nat.shiftLeft_eq]

@[simp] theorem wordsOfBytes_bytesOfWords (ws : List Word) : wordsOfBytes (bytesOfWords ws) = ws := by
  induction ws with
  | nil => rfl
  | cons w ws ih => simp [bytesOfWords, wordsOfBytes, ih]

namespace Machine

/-! ### Reading after writing -/

@[simp] theorem readByte_nil (a : Nat) : Memory.readByte [] a = unlistedByte := rfl

theorem readByte_erase (m : Memory) (a x : Nat) :
    (m.erase a).readByte x = if x = a then unlistedByte else m.readByte x := by
  induction m with
  | nil => simp [Memory.erase, Memory.readByte]
  | cons c m ih =>
    by_cases hc : c.1 = a
    · have e : Memory.erase (c :: m) a = Memory.erase m a := by simp [Memory.erase, hc]
      rw [e, ih]
      by_cases hx : x = a
      · simp [hx]
      · have : ¬ c.1 = x := fun h => hx (h.symm.trans hc)
        simp [Memory.readByte, hx, this]
    · have e : Memory.erase (c :: m) a = c :: Memory.erase m a := by simp [Memory.erase, hc]
      rw [e]
      by_cases hx : c.1 = x
      · have hxa : ¬ x = a := fun h => hc (hx.trans h)
        simp [Memory.readByte, hx, hxa]
      · simp only [Memory.readByte, if_neg hx]; exact ih

theorem readByte_insert_other (m : Memory) (a x : Nat) (v : Byte) (h : x ≠ a) :
    (m.insert a v).readByte x = m.readByte x := by
  induction m with
  | nil => simp [Memory.insert, Memory.readByte, Ne.symm h]
  | cons c m ih =>
    by_cases hc : a < c.1
    · simp [Memory.insert, hc, Memory.readByte, Ne.symm h]
    · simp only [Memory.insert, if_neg hc, Memory.readByte]; rw [ih]

theorem readByte_insert_same (m : Memory) (a : Nat) (v : Byte) (h : ∀ c ∈ m, c.1 ≠ a) :
    (m.insert a v).readByte a = v := by
  induction m with
  | nil => simp [Memory.insert, Memory.readByte]
  | cons c m ih =>
    by_cases hc : a < c.1
    · simp [Memory.insert, hc, Memory.readByte]
    · have hne : c.1 ≠ a := h c (by simp)
      simp only [Memory.insert, if_neg hc, Memory.readByte, if_neg hne]
      exact ih fun d hd => h d (by simp [hd])

theorem ne_of_mem_erase {m : Memory} {a : Nat} {c : Host.Cell} (h : c ∈ m.erase a) : c.1 ≠ a := by
  simp only [Memory.erase, List.mem_filter] at h
  simpa using h.2

/-- The byte law: a write gives its value at its address and leaves every other address alone. -/
theorem readByte_writeByte (m : Memory) (a x : Nat) (v : Byte) :
    (m.writeByte a v).readByte x = if x = a then v else m.readByte x := by
  unfold Memory.writeByte
  by_cases hv : v = unlistedByte
  · simp [hv, readByte_erase]
  · by_cases hx : x = a
    · subst hx
      simp [hv, readByte_insert_same _ _ _ fun c hc => ne_of_mem_erase hc]
    · simp [hv, hx, readByte_insert_other, readByte_erase]

/-- A word write changes the two bytes of its word and no other. -/
theorem readByte_writeWord (m : Memory) (addr x : Nat) (w : Word) :
    (m.writeWord addr w).readByte x =
      if x = 2 * addr then lowByte w else if x = 2 * addr + 1 then highByte w else m.readByte x := by
  simp only [Memory.writeWord, readByte_writeByte]
  split
  · have : x ≠ 2 * addr := by omega
    simp_all
  · rfl

/-- The word law. -/
theorem readWord_writeWord (m : Memory) (addr x : Nat) (w : Word) :
    (m.writeWord addr w).readWord x = if x = addr then w else m.readWord x := by
  by_cases h : x = addr
  · subst h
    simp [Memory.readWord, readByte_writeWord]
  · have h0 : ¬ 2 * x = 2 * addr := by omega
    have h1 : ¬ 2 * x = 2 * addr + 1 := by omega
    have h2 : ¬ 2 * x + 1 = 2 * addr := by omega
    have h3 : ¬ 2 * x + 1 = 2 * addr + 1 := by omega
    simp [Memory.readWord, readByte_writeWord, h, h0, h1, h2]

/-- Bytes of an image read back in order. -/
theorem readByte_ofBytes (bs : List Byte) (start x : Nat) :
    (Memory.ofBytes start bs).readByte x = if start ≤ x then bs.getD (x - start) unlistedByte else unlistedByte := by
  induction bs generalizing start with
  | nil => simp [Memory.ofBytes]
  | cons b bs ih =>
    by_cases hx : x = start
    · subst hx
      by_cases hb : b = unlistedByte
      · simp [Memory.ofBytes, hb, ih]
      · simp [Memory.ofBytes, hb, Memory.readByte]
    · have key : (Memory.ofBytes start (b :: bs)).readByte x = (Memory.ofBytes (start + 1) bs).readByte x := by
        by_cases hb : b = unlistedByte
        · simp [Memory.ofBytes, hb]
        · simp [Memory.ofBytes, hb, Memory.readByte, Ne.symm hx]
      rw [key, ih]
      by_cases h : start ≤ x
      · obtain ⟨d, rfl⟩ : ∃ d, x = start + d + 1 := ⟨x - start - 1, by omega⟩
        have e1 : start + d + 1 - (start + 1) = d := by omega
        have e2 : start + d + 1 - start = d + 1 := by omega
        have h1 : start + 1 ≤ start + d + 1 := by omega
        have h2 : start ≤ start + d + 1 := by omega
        simp [e1, e2, h1, h2]
      · have : ¬ start + 1 ≤ x := by omega
        simp [h, this]

/-! ### The canonical form -/

theorem wf_cons {c : Host.Cell} {m : Memory} :
    Memory.wf (c :: m) = true ↔ c.2 ≠ unlistedByte ∧ (∀ d ∈ m, c.1 < d.1) ∧ m.wf = true := by
  simp [Memory.wf, Bool.and_eq_true, List.all_eq_true, and_assoc]

theorem mem_insert {m : Memory} {a : Nat} {v : Byte} {d : Host.Cell} :
    d ∈ m.insert a v ↔ d = (a, v) ∨ d ∈ m := by
  induction m with
  | nil => simp [Memory.insert]
  | cons c m ih =>
    by_cases hc : a < c.1
    · simp [Memory.insert, hc]
    · simp [Memory.insert, hc, ih]; tauto

theorem wf_erase {m : Memory} (a : Nat) (h : m.wf = true) : (m.erase a).wf = true := by
  induction m with
  | nil => rfl
  | cons c m ih =>
    obtain ⟨hv, hlt, hm⟩ := wf_cons.1 h
    by_cases hc : c.1 = a
    · have e : Memory.erase (c :: m) a = Memory.erase m a := by simp [Memory.erase, hc]
      rw [e]; exact ih hm
    · have e : Memory.erase (c :: m) a = c :: Memory.erase m a := by simp [Memory.erase, hc]
      rw [e]
      exact wf_cons.2 ⟨hv, fun d hd => hlt d (List.mem_filter.1 hd).1, ih hm⟩

theorem wf_insert {m : Memory} {a : Nat} {v : Byte} (h : m.wf = true) (hv : v ≠ unlistedByte)
    (ha : ∀ c ∈ m, c.1 ≠ a) : (m.insert a v).wf = true := by
  induction m with
  | nil => simp [Memory.insert, Memory.wf, hv]
  | cons c m ih =>
    obtain ⟨hcv, hlt, hm⟩ := wf_cons.1 h
    by_cases hc : a < c.1
    · simp only [Memory.insert, if_pos hc]
      refine wf_cons.2 ⟨hv, fun d hd => ?_, h⟩
      rcases List.mem_cons.1 hd with rfl | hd
      · exact hc
      · exact lt_trans hc (hlt d hd)
    · simp only [Memory.insert, if_neg hc]
      refine wf_cons.2 ⟨hcv, fun d hd => ?_, ih hm fun d hd => ha d (by simp [hd])⟩
      rcases mem_insert.1 hd with rfl | hd
      · exact lt_of_le_of_ne (not_lt.1 hc) (ha c (by simp))
      · exact hlt d hd

/-- A byte write keeps the canonical form. -/
theorem wf_writeByte {m : Memory} (a : Nat) (v : Byte) (h : m.wf = true) : (m.writeByte a v).wf = true := by
  unfold Memory.writeByte
  split
  · exact wf_erase a h
  · exact wf_insert (wf_erase a h) ‹_› fun c hc => ne_of_mem_erase hc

/-- A word write keeps the canonical form. -/
theorem wf_writeWord {m : Memory} (addr : Nat) (w : Word) (h : m.wf = true) : (m.writeWord addr w).wf = true :=
  wf_writeByte _ _ (wf_writeByte _ _ h)

/-- Writing consecutive words keeps the canonical form. -/
theorem wf_writeWords {m : Memory} (addr : Nat) (ws : List Word) (h : m.wf = true) : (m.writeWords addr ws).wf = true := by
  induction ws generalizing m addr with
  | nil => exact h
  | cons w ws ih => exact ih _ (wf_writeWord addr w h)

theorem mem_ofBytes {bs : List Byte} {start : Nat} {c : Host.Cell} (h : c ∈ Memory.ofBytes start bs) :
    start ≤ c.1 ∧ c.1 < start + bs.length := by
  induction bs generalizing start with
  | nil => simp [Memory.ofBytes] at h
  | cons b bs ih =>
    simp only [Memory.ofBytes] at h
    split at h
    · have := ih h; simp; omega
    · rcases List.mem_cons.1 h with rfl | h
      · simp
      · have := ih h; simp; omega

/-- Loading bytes gives the canonical form. -/
theorem wf_ofBytes (bs : List Byte) (start : Nat) : (Memory.ofBytes start bs).wf = true := by
  induction bs generalizing start with
  | nil => rfl
  | cons b bs ih =>
    simp only [Memory.ofBytes]
    split
    · exact ih _
    · exact wf_cons.2 ⟨‹_›, fun d hd => (mem_ofBytes hd).1, ih _⟩

theorem mem_writeByte {m : Memory} {a : Nat} {v : Byte} {d : Host.Cell} (h : d ∈ m.writeByte a v) :
    d = (a, v) ∨ d ∈ m := by
  unfold Memory.writeByte at h
  split at h
  · exact .inr (List.mem_filter.1 h).1
  · rcases mem_insert.1 h with h | h
    · exact .inl h
    · exact .inr (List.mem_filter.1 h).1

/-- A word write lists no address but the old ones and its own two. -/
theorem mem_writeWord {m : Memory} {addr : Nat} {w : Word} {d : Host.Cell} (h : d ∈ m.writeWord addr w) :
    d.1 = 2 * addr ∨ d.1 = 2 * addr + 1 ∨ d ∈ m := by
  rcases mem_writeByte h with rfl | h
  · exact .inr (.inl rfl)
  · rcases mem_writeByte h with rfl | h
    · exact .inl rfl
    · exact .inr (.inr h)

/-- The memory after reset has the canonical form. -/
theorem wf_reset : State.reset.mem.wf = true := rfl

end Machine

end Sys2Proof
end

