-- ==== Sys2Proof/Laws/PerInstr.lean ====
section
/-! SUPPORT. Statements for all instructions, one lemma per constructor. -/

/-! Family RomRow: the dispatch ROM's entry at the instruction's opcode has the kinds of its operands, and its width is 1 + k
(30_encoding.md R70, R77, R80). -/

namespace Sys2Proof.Laws.RomRow

def Statement (i : Instr) : Prop :=
  ∃ e, rom[i.opcode.toNat]? = some e ∧ e.kinds = i.operands.map Prod.fst ∧ (encode i).length = 1 + e.k

theorem halt : Statement .halt := ⟨_, rfl, rfl, rfl⟩
theorem set (a b : Operand) : Statement (.set a b) := ⟨_, rfl, rfl, rfl⟩
theorem push (a : Operand) : Statement (.push a) := ⟨_, rfl, rfl, rfl⟩
theorem pop (a : Operand) : Statement (.pop a) := ⟨_, rfl, rfl, rfl⟩
theorem eq (a b c : Operand) : Statement (.eq a b c) := ⟨_, rfl, rfl, rfl⟩
theorem gt (a b c : Operand) : Statement (.gt a b c) := ⟨_, rfl, rfl, rfl⟩
theorem jmp (a : Operand) : Statement (.jmp a) := ⟨_, rfl, rfl, rfl⟩
theorem jt (a b : Operand) : Statement (.jt a b) := ⟨_, rfl, rfl, rfl⟩
theorem jf (a b : Operand) : Statement (.jf a b) := ⟨_, rfl, rfl, rfl⟩
theorem add (a b c : Operand) : Statement (.add a b c) := ⟨_, rfl, rfl, rfl⟩
theorem mult (a b c : Operand) : Statement (.mult a b c) := ⟨_, rfl, rfl, rfl⟩
theorem mod (a b c : Operand) : Statement (.mod a b c) := ⟨_, rfl, rfl, rfl⟩
theorem and (a b c : Operand) : Statement (.and a b c) := ⟨_, rfl, rfl, rfl⟩
theorem or (a b c : Operand) : Statement (.or a b c) := ⟨_, rfl, rfl, rfl⟩
theorem not (a b : Operand) : Statement (.not a b) := ⟨_, rfl, rfl, rfl⟩
theorem rmem (a b : Operand) : Statement (.rmem a b) := ⟨_, rfl, rfl, rfl⟩
theorem wmem (a b : Operand) : Statement (.wmem a b) := ⟨_, rfl, rfl, rfl⟩
theorem call (a : Operand) : Statement (.call a) := ⟨_, rfl, rfl, rfl⟩
theorem ret : Statement .ret := ⟨_, rfl, rfl, rfl⟩
theorem out (a : Operand) : Statement (.out a) := ⟨_, rfl, rfl, rfl⟩
theorem in_ (a : Operand) : Statement (.in_ a) := ⟨_, rfl, rfl, rfl⟩
theorem noop : Statement .noop := ⟨_, rfl, rfl, rfl⟩

end Sys2Proof.Laws.RomRow
end

