-- ==== Sys2Proof/Machine/Listing.lean ====
section
/-! DEFINITION. The assembler line of an instruction (30_encoding.md R90) and its listing line (R93). The renderer's walk (R94) is
out of scope (00_scope.md R5). -/

namespace Sys2Proof.Machine

/-- An operand as R90 writes it: a decimal literal or `r<i>`. An invalid operand, which R90 does not write, is its decimal word (log 19). -/
def operandText : Operand → String
  | .lit v => toString v.toNat
  | .reg i => "r" ++ toString i.val
  | .invalid w => toString w.toNat

/-- The upper-case mnemonic, from the shared table (R80, R90). -/
def mnemonicText (i : Instr) : String :=
  match rom[i.opcode.toNat]? with
  | some e => e.mnemonic
  | none => ""

/-- `MNEMONIC a b c`, single spaces between (R90). -/
def asmText (i : Instr) : String :=
  i.operands.foldl (fun t o => t ++ " " ++ operandText o.2) (mnemonicText i)

/-- The OUT operand as its character, the line terminator as an escaped two-character sequence (R93). Which two characters is not
stated: backslash and n, whatever code LINE_TERMINATOR has, is the model's DESIGN CHOICE (log 21); a register operand as `r<i>` and an
invalid one as its decimal word is log 19. -/
def outText (term : Word) : Operand → String
  | .lit v => if v.toNat = term.toNat then "\\n" else String.singleton (Char.ofNat v.toNat)
  | .reg i => operandText (.reg i)
  | .invalid w => operandText (.invalid w)

/-- `<p> <MNEMONIC> <operand>...` (R93). -/
def listingLine (term : Word) (p : Nat) (i : Instr) : String :=
  toString p ++ " " ++
    match i with
    | .out a => mnemonicText i ++ " " ++ outText term a
    | _ => asmText i

end Sys2Proof.Machine
end

