-- ==== Sys2Proof/Tests/Slice0.lean ====
section
/-! SUPPORT. Tests, each one step or one decoding, with expected values from 95_test_vectors.md (its ids are in the comments) or
from the opcode map of 30_encoding.md R77; and for each statement a concrete state that meets its hypotheses. -/

namespace Sys2Proof.Tests

open Sys2Proof Sys2Proof.Machine

/-- The state after the image of these words is loaded from reset. -/
def boot (ws : List Word) : State := loadImage (bytesOfWords ws) State.reset

/-- A field of the next state, if there is one. -/
def look {α : Type} (r : Result) (f : State → α) : Option α :=
  match r with
  | .next t => some (f t)
  | .fault _ => none
  | .refused _ => none

/-- RUN_STATE, FAULT_CAUSE, FAULT_PC, FAULT_INFO. -/
def faultView (t : State) : RunState × FaultCause × Word × Word := (t.runState, t.faultCause, t.faultPc, t.faultInfo)

/-! ### WellFormed refuses each ill-formed operand position -/

theorem test_wf_refuses_invalid_in_literal_range : (Instr.push (.invalid 5)).wf = false := by decide
theorem test_wf_refuses_invalid_in_register_range : (Instr.set (.invalid 32775) (.lit 0)).wf = false := by decide
theorem test_wf_refuses_second_operand : (Instr.set (.reg 0) (.invalid 32767)).wf = false := by decide
theorem test_wf_refuses_third_operand : (Instr.add (.reg 0) (.lit 1) (.invalid 0)).wf = false := by decide
theorem test_wf_accepts_invalid_class : (Instr.add (.reg 7) (.lit 32767) (.invalid 32776)).wf = true := by decide
theorem test_sourceForm_refuses_literal_destination : (Instr.set (.lit 3) (.lit 5)).sourceForm = false := by decide
theorem test_sourceForm_refuses_invalid_destination : (Instr.pop (.invalid 65535)).sourceForm = false := by decide
theorem test_sourceForm_refuses_invalid_value : (Instr.wmem (.lit 1) (.invalid 40000)).sourceForm = false := by decide

/-! ### Decoding: every row of R77, its opcode word written out, operand words of all three classes -/

theorem test_decode_control : decodeWords [0] = .ok (.halt, []) ∧ decodeWords [21, 5] = .ok (.noop, [5]) := by decide
theorem test_decode_move_stack : decodeWords [1, 32768, 5] = .ok (.set (.reg 0) (.lit 5), []) ∧
    decodeWords [2, 32769] = .ok (.push (.reg 1), []) ∧ decodeWords [3, 32775] = .ok (.pop (.reg 7), []) := by decide
theorem test_decode_compare : decodeWords [4, 32768, 32769, 7] = .ok (.eq (.reg 0) (.reg 1) (.lit 7), []) ∧
    decodeWords [5, 32768, 3, 2] = .ok (.gt (.reg 0) (.lit 3) (.lit 2), []) := by decide
theorem test_decode_branch : decodeWords [6, 10] = .ok (.jmp (.lit 10), []) ∧
    decodeWords [7, 32768, 100] = .ok (.jt (.reg 0) (.lit 100), []) ∧
    decodeWords [8, 0, 32776] = .ok (.jf (.lit 0) (.invalid 32776), []) := by decide
theorem test_decode_alu : decodeWords [9, 32770, 32768, 32769] = .ok (.add (.reg 2) (.reg 0) (.reg 1), []) ∧
    decodeWords [10, 32768, 200, 300] = .ok (.mult (.reg 0) (.lit 200) (.lit 300), []) ∧
    decodeWords [11, 32769, 27232, 1000] = .ok (.mod (.reg 1) (.lit 27232) (.lit 1000), []) ∧
    decodeWords [12, 32771, 32535, 255] = .ok (.and (.reg 3) (.lit 32535) (.lit 255), []) ∧
    decodeWords [13, 32772, 23, 256] = .ok (.or (.reg 4) (.lit 23) (.lit 256), []) ∧
    decodeWords [14, 32770, 232] = .ok (.not (.reg 2) (.lit 232), []) := by decide
theorem test_decode_memory : decodeWords [15, 32768, 20] = .ok (.rmem (.reg 0) (.lit 20), []) ∧
    decodeWords [16, 20, 1234] = .ok (.wmem (.lit 20) (.lit 1234), []) := by decide
theorem test_decode_call : decodeWords [17, 9] = .ok (.call (.lit 9), []) ∧ decodeWords [18] = .ok (.ret, []) := by decide
theorem test_decode_console : decodeWords [19, 32770] = .ok (.out (.reg 2), []) ∧
    decodeWords [20, 32768] = .ok (.in_ (.reg 0), []) := by decide
theorem test_decode_unknown : decodeWords [22, 0] = .error (.unknownOpcode 22) ∧
    decodeWords [32768] = .error (.unknownOpcode 32768) ∧ decodeWords [65535] = .error (.unknownOpcode 65535) := by decide
theorem test_decode_truncated : decodeWords [9] = .error (.truncated 1) ∧ decodeWords [9, 32768] = .error (.truncated 2) ∧
    decodeWords [9, 32768, 1] = .error (.truncated 3) ∧ decode [0x09] = .error .noOpcodeWord := by decide
/-- R91: `JT r0 100` in image bytes. -/
theorem test_decode_bytes : decode [0x07, 0x00, 0x00, 0x80, 0x64, 0x00] = .ok (.jt (.reg 0) (.lit 100), []) := by decide
theorem test_encode_bytes : encodeBytes (.jt (.reg 0) (.lit 100)) = [0x07, 0x00, 0x00, 0x80, 0x64, 0x00] := by decide
theorem test_table_word : decodeTableWord 48 0x000580000001 = some (.set (.reg 0) (.lit 5)) ∧
    decodeTableWord 16 1 = some (.set (.lit 0) (.lit 0)) ∧ decodeTableWord 16 22 = none := by decide

/-! ### Load (95_test_vectors.md 2.1) -/

/-- L1, L2. -/
theorem test_load_malformed : faultView (loadImage [] State.reset) = (.faulted, .malformedImage, 0, 0) ∧
    faultView (loadImage [0x00] State.reset) = (.faulted, .malformedImage, 0, 1) := by decide
/-- L4: the low byte comes first. -/
theorem test_load_little_endian : (loadImage [0x34, 0x12] State.reset).mem.readWord 0 = 4660 ∧
    (loadImage [0x34, 0x12] State.reset).memLen = 1 := by decide
/-- L6, first step. -/
theorem test_load_keeps_any_word : look (step (boot [65535, 0])) (fun t => (t.trace, t.pc)) = some ([.diag 0 65535], 1) := by decide

/-! ### Operands (2.2) -/

/-- O1: a literal destination 3 names r3. -/
theorem test_literal_destination : look (step (boot [1, 3, 5, 0])) (fun t => (t.reg 3, t.pc)) = some (5, 3) := by decide
/-- O2, O7. -/
theorem test_bad_destination : look (step (boot [1, 8, 5, 0])) faultView = some (.faulted, .invalidRegister, 0, 8) ∧
    look (step (boot [1, 65535, 1, 0])) faultView = some (.faulted, .invalidRegister, 0, 65535) := by decide
/-- O3. -/
theorem test_bad_value : look (step (boot [1, 32768, 32776, 0])) faultView = some (.faulted, .invalidOperand, 0, 32776) := by decide
/-- O5: operand a is resolved first. -/
theorem test_first_operand_fault : look (step (boot [9, 9, 32776, 0, 0])) faultView = some (.faulted, .invalidRegister, 0, 9) := by decide
/-- O6. -/
theorem test_truncated : look (step (boot [9, 32768, 1])) faultView = some (.faulted, .truncatedInstruction, 0, 3) := by decide
/-- O8: `ADD r0 r0 r0` reads the old r0. -/
theorem test_add_reads_old : look (step ((boot [9, 32768, 32768, 32768, 0]).setReg 0 20000)) (·.reg 0) = some 7232 := by decide

/-! ### Instructions, one step each (2.3 to 2.10) -/

/-- M1. -/
theorem test_halt : look (step (boot [0])) (fun t => (t.runState, t.haltCause)) = some (.halted, .haltOpcode) := by decide
/-- M2, M5. -/
theorem test_noop : look (step (boot [21, 0])) (fun t => (t.pc, t.runState)) = some (1, .running) ∧
    look (step ((boot [21]).setPc 1)) (fun t => (t.runState, t.haltCause)) = some (.halted, .endOfMemory) := by decide
/-- M3, M4. -/
theorem test_unknown : look (step (boot [22, 0])) (fun t => (t.trace, t.pc)) = some ([.diag 0 22], 1) ∧
    look (step (boot [32768, 0])) (fun t => (t.trace, t.pc)) = some ([.diag 0 32768], 1) := by decide
/-- K1. -/
theorem test_set : look (step (boot [1, 32768, 5, 0])) (fun t => (t.reg 0, t.pc)) = some (5, 3) := by decide
/-- K2. -/
theorem test_push : look (step ((boot [2, 32769, 0]).setReg 1 9)) (fun t => (t.stack, t.pc)) = some ([9], 2) := by decide
/-- K5: a bounded stack. -/
theorem test_push_overflow : look (step { (boot [2, 2]).setStack [1] with params := ⟨some 1, none, 10⟩ })
    (fun t => (faultView t, t.stack)) = some ((.faulted, .stackOverflow, 0, 2), [1]) := by decide
/-- K4, third step: the top is taken. -/
theorem test_pop : look (step ((boot [3, 32768, 0]).setStack [41, 40])) (fun t => (t.reg 0, t.stack)) = some (41, [40]) := by decide
/-- K3. -/
theorem test_pop_underflow : look (step (boot [3, 32768])) faultView = some (.faulted, .stackUnderflow, 0, 0) := by decide
/-- C1, C2. -/
theorem test_eq : look (step ((boot [4, 32768, 32769, 7, 0]).setReg 1 7)) (·.reg 0) = some 1 ∧
    look (step ((boot [4, 32768, 5, 6, 0]).setReg 0 9)) (·.reg 0) = some 0 := by decide
/-- C3, C4, C5. -/
theorem test_gt : look (step (boot [5, 32768, 3, 2, 0])) (·.reg 0) = some 1 ∧
    look (step ((boot [5, 32768, 2, 2, 0]).setReg 0 9)) (·.reg 0) = some 0 ∧
    look (step (boot [5, 32768, 32767, 0, 0])) (·.reg 0) = some 1 := by decide
/-- B1. -/
theorem test_jmp : look (step (boot [6, 3, 0, 0])) (·.pc) = some 3 := by decide
/-- B2, B3, B7. -/
theorem test_jt : look (step (boot [7, 32768, 100, 0])) (·.pc) = some 3 ∧
    look (step ((boot [7, 32768, 100, 0]).setReg 0 7)) (·.pc) = some 100 ∧
    look (step (boot [7, 0, 32776, 0])) faultView = some (.faulted, .invalidOperand, 0, 32776) := by decide
/-- B4, B5. -/
theorem test_jf : look (step (boot [8, 0, 5, 0, 0, 21, 0])) (·.pc) = some 5 ∧
    look (step ((boot [8, 32768, 5, 0]).setReg 0 1)) (·.pc) = some 3 := by decide
/-- A1, A2. -/
theorem test_add : look (step (boot [9, 32768, 32767, 1, 0])) (·.reg 0) = some 0 ∧
    look (step (boot [9, 32768, 32767, 32767, 0])) (·.reg 0) = some 32766 := by decide
/-- A3, A5. -/
theorem test_mult : look (step (boot [10, 32768, 32767, 32767, 0])) (·.reg 0) = some 1 ∧
    look (step (boot [10, 32768, 200, 300, 0])) (·.reg 0) = some 27232 := by decide
/-- A6, A7, A8. -/
theorem test_mod : look (step (boot [11, 32768, 10, 3, 0])) (·.reg 0) = some 1 ∧
    look (step (boot [11, 32768, 5, 7, 0])) (·.reg 0) = some 5 ∧
    look (step (boot [11, 32768, 5, 0, 0])) faultView = some (.faulted, .divideByZero, 0, 5) := by decide
/-- A10. -/
theorem test_and : look (step (boot [12, 32768, 32535, 255, 0])) (·.reg 0) = some 23 := by decide
/-- A11, A12. -/
theorem test_or : look (step (boot [13, 32768, 23, 256, 0])) (·.reg 0) = some 279 ∧
    look (step (boot [13, 32768, 21845, 10922, 0])) (·.reg 0) = some 32767 := by decide
/-- A13, A15. -/
theorem test_not : look (step (boot [14, 32768, 0, 0])) (·.reg 0) = some 32767 ∧
    look (step (boot [14, 32768, 21845, 0])) (fun t => (t.reg 0, t.pc)) = some (10922, 3) := by decide
/-- D1. -/
theorem test_rmem : look (step (boot [15, 32768, 4, 0, 1234])) (fun t => (t.reg 0, t.pc)) = some (1234, 3) := by decide
/-- D2, D3. -/
theorem test_rmem_faults : look (step (boot [15, 32768, 1, 0])) faultView = some (.faulted, .wordRange, 0, 32768) ∧
    look (step (boot [15, 32768, 100, 0])) faultView = some (.faulted, .memoryRange, 0, 100) := by decide
/-- D5. -/
theorem test_wmem : look (step (boot [16, 4, 7, 0, 0])) (fun t => (t.mem.readWord 4, t.mem.readWord 3, t.pc)) = some (7, 0, 3) := by decide
/-- D4. -/
theorem test_wmem_range : look (step (boot [16, 4, 1, 0])) (fun t => (faultView t, t.mem.readWord 0, t.mem.readWord 4, t.memLen)) =
    some ((.faulted, .memoryRange, 0, 4), 16, 0, 4) := by decide
/-- R2. -/
theorem test_call : look (step (boot [17, 2])) (fun t => (t.stack, t.pc)) = some ([2], 2) := by decide
/-- R4, second step, and R1. -/
theorem test_ret : look (step (((boot [17, 4, 0, 0, 18]).setStack [2]).setPc 4)) (fun t => (t.stack, t.pc)) = some ([], 2) ∧
    look (step (boot [18])) faultView = some (.faulted, .stackUnderflow, 0, 0) := by decide
/-- I1. -/
theorem test_out : look (step (boot [19, 65, 0])) (fun t => (t.trace, t.pc)) = some ([.out 65], 2) := by decide
/-- I3, I6. -/
theorem test_in_waits : look (step (boot [20, 32768, 0])) (fun t => (t.trace, t.runState, t.pc)) = some ([.lineRequest], .waitInput, 0) ∧
    look (step (boot [20, 8])) (fun t => (faultView t, t.trace)) = some ((.faulted, .invalidRegister, 0, 8), []) := by decide
/-- The state of I2 and I4 when the CORE has asked for a line. -/
def waiting (h : List HostEvent) : State := { boot [20, 32768, 20, 32769] with runState := .waitInput, trace := [.lineRequest], hostEvents := h }
/-- I4 and I2, the arrival of the line. -/
theorem test_line_arrives : look (step (waiting [.line [104, 105]])) (fun t => (t.reg 0, t.inputQueue, t.runState, t.pc)) =
      some (104, [105, 10], .running, 2) ∧
    look (step (waiting [.answer []])) (fun t => (t.reg 0, t.inputQueue)) = some (10, []) := by decide
/-- I5: the code stays in front of the refilled queue. -/
theorem test_line_word_range : look (step (waiting [.line [40000]])) (fun t => (faultView t, t.inputQueue)) =
    some ((.faulted, .wordRange, 0, 40000), [40000, 10]) := by decide

/-! ### Codes, listing, placing -/

/-- R231 to R233 of the state file and the end-state observation of R45. -/
theorem test_status : hostStatus (boot [0]) = ⟨1, 0, 0, 0, 0, 1⟩ ∧ endState (boot [0]) = none ∧
    look (step (boot [3, 32768])) hostStatus = some ⟨4, 0, 2, 0, 0, 2⟩ ∧
    look (step (boot [18])) (fun t => (endState t).map (·.words)) = some (some [18]) := by decide
/-- R90, and S6 with the listing of R93. -/
theorem test_listing : asmText (.add (.reg 2) (.reg 0) (.reg 1)) = "ADD r2 r0 r1" ∧ listingLine 10 0 .halt = "0 HALT" ∧
    listingLine 10 4 (.out (.lit 65)) = "4 OUT A" ∧ listingLine 10 4 (.out (.lit 10)) = "4 OUT \\n" := by decide
/-- The placed instruction is the one the next step runs, from reset and from a pc at the end of memory. -/
theorem test_withFetchWord : look (step (State.reset.withFetchWord 48 0x000580000001)) (fun t => (t.reg 0, t.pc)) = some (5, 3) ∧
    look (step ((State.reset.setPc 32766).withFetchWord 16 21)) (fun t => (t.pc, t.runState)) = some (1, .running) := by decide

/-! ### Witnesses: for each statement, a state and operands that meet the hypotheses of each clause -/

theorem witness_OperandWordsFallInThreeClasses : Operand.ofWord 32767 = .lit 32767 ∧ Operand.ofWord 32768 = .reg 0 ∧
    Operand.ofWord 32775 = .reg 7 ∧ Operand.ofWord 32776 = .invalid 32776 ∧ Operand.ofWord 65535 = .invalid 65535 := by decide
theorem witness_RvalueResolvesReadOperand : rvalue (.ofWord 32767) State.reset = .ok 32767 ∧
    rvalue (.ofWord 32768) (State.reset.setReg 0 5) = .ok 5 ∧ rvalue (.ofWord 32775) (State.reset.setReg 7 6) = .ok 6 ∧
    rvalue (.ofWord 32776) State.reset = .error (.invalidOperand, 32776) := by decide
theorem witness_LvalueTakesIndexModulo32768 : lvalue (.ofWord 7) = .ok 7 ∧ lvalue (.ofWord 8) = .error (.invalidRegister, 8) ∧
    lvalue (.ofWord 32775) = .ok 7 ∧ lvalue (.ofWord 32776) = .error (.invalidRegister, 32776) := by decide
theorem witness_FirstFaultingOperandDecidesFault :
    firstOperandFault (.add (.lit 9) (.invalid 32776) (.lit 0)) State.reset = some (.invalidRegister, 9) ∧
    firstOperandFault (.jt (.lit 0) (.invalid 32776)) State.reset = some (.invalidOperand, 32776) := by decide
theorem witness_DecodeInvertsEncode : (Instr.add (.reg 7) (.lit 32767) (.invalid 32776)).wf = true := by decide
theorem witness_EncodeInvertsDecode : decodeWords [21, 7] = .ok (.noop, [7]) := by decide
theorem witness_OpcodeWordAloneGivesLength : 21 < (22 : Word).toNat ∧ (21 : Word).toNat ≤ 21 ∧
    (rom[9]?.map RomEntry.k) = some 3 ∧ ([1, 2] : List Word).length < 3 ∧ 3 ≤ ([1, 2, 3] : List Word).length := by decide
theorem witness_StandsAtPc_set : StandsAtPc (.set (.reg 0) (.lit 5)) (boot [1, 32768, 5]) := by
  refine ⟨by decide, fun j w h => ?_⟩
  rcases j with _ | _ | _ | j
  · cases h; decide
  · cases h; decide
  · cases h; decide
  · cases h
theorem witness_StepRunsDecodedInstruction : (Instr.set (.reg 0) (.lit 5)).wf = true ∧
    StandsAtPc (.set (.reg 0) (.lit 5)) (boot [1, 32768, 5]) ∧ (boot [1, 32768, 5]).runState = .running ∧
    (boot [1, 32768, 5]).hostEvents = [] ∧ ((boot [1, 32768, 5]).setHost [.answer []]).hostEvents = .answer [] :: [] ∧
    ((boot [1, 32768, 5]).setHost [.quiet]).hostEvents = .quiet :: [] := ⟨rfl, witness_StandsAtPc_set, rfl, rfl, rfl, rfl⟩
/-- The three forms of the CORE's turn, in every statement that says `CoreTurn`. -/
theorem witness_CoreTurn (ws : List Word) (h : (boot ws).runState = .running) (he : (boot ws).hostEvents = []) :
    CoreTurn (boot ws) (boot ws) ∧ CoreTurn ((boot ws).setHost [.answer [1]]) ((boot ws).setHost [.answer [1]]) ∧
    CoreTurn ((boot ws).setHost [.quiet, .reset]) (((boot ws).setHost [.quiet, .reset]).setHost [.reset]) :=
  ⟨⟨h, .inl ⟨he, rfl⟩⟩, ⟨h, .inr (.inl ⟨_, _, rfl, rfl⟩)⟩, ⟨h, .inr (.inr ⟨_, rfl, rfl⟩)⟩⟩
theorem witness_UnknownOpcodeIsReportedAndSkipped : CoreTurn (boot [22]) (boot [22]) ∧
    (boot [22]).pc.toNat < (boot [22]).memLen.toNat ∧ 21 < ((boot [22]).mem.readWord (boot [22]).pc.toNat).toNat :=
  ⟨(witness_CoreTurn _ rfl rfl).1, by decide, by decide⟩
theorem witness_FetchBeyondMemoryHalts : CoreTurn ((boot [21]).setPc 1) ((boot [21]).setPc 1) ∧
    ((boot [21]).setPc 1).memLen.toNat ≤ ((boot [21]).setPc 1).pc.toNat := ⟨⟨rfl, .inl ⟨rfl, rfl⟩⟩, by decide⟩
theorem witness_TruncatedInstructionFaults : CoreTurn (boot [9, 32768, 1]) (boot [9, 32768, 1]) ∧
    (boot [9, 32768, 1]).pc.toNat < (boot [9, 32768, 1]).memLen.toNat ∧
    rom[((boot [9, 32768, 1]).mem.readWord (boot [9, 32768, 1]).pc.toNat).toNat]? = some ⟨"ADD", [.write, .read, .read], .seq⟩ ∧
    (boot [9, 32768, 1]).memLen.toNat ≤ (boot [9, 32768, 1]).pc.toNat + (⟨"ADD", [.write, .read, .read], .seq⟩ : RomEntry).k :=
  ⟨(witness_CoreTurn _ rfl rfl).1, by decide, by decide, by decide⟩
/-- The memory of `EncodedAs` that ends within the words, for a form of each length: in every statement that says `EncodedAs`. -/
theorem witness_EncodedAs_memory_ends_within : ([9, 32768, 1, 5] : List Word)[0]? = some ((boot [9, 32768, 1]).mem.readWord 0) ∧
    (boot [9, 32768, 1]).memLen.toNat < 0 + ([9, 32768, 1, 5] : List Word).length ∧
    ([1, 32768, 5] : List Word)[0]? = some ((boot [1]).mem.readWord 0) ∧ (boot [1]).memLen.toNat < 0 + ([1, 32768, 5] : List Word).length ∧
    ([6, 10] : List Word)[0]? = some ((boot [6]).mem.readWord 0) ∧ (boot [6]).memLen.toNat < 0 + ([6, 10] : List Word).length := by decide
/-- One write and one read operand: SET, NOT. Registers are read and written at both ends of the file. -/
theorem witness_SetWritesResolvedValue : lvalue (.reg 7) = .ok 7 ∧ rvalue (.lit 32767) State.reset = .ok 32767 ∧
    firstOperandFault (.set (.lit 8) (.lit 0)) State.reset = some (.invalidRegister, 8) := by decide
theorem witness_NotKeepsFifteenBitComplement : lvalue (.lit 7) = .ok 7 ∧ rvalue (.reg 0) (State.reset.setReg 0 32767) = .ok 32767 ∧
    firstOperandFault (.not (.reg 0) (.invalid 32776)) State.reset = some (.invalidOperand, 32776) := by decide
/-- One write and two read operands: EQ, GT, ADD, MULT, AND, OR. -/
theorem witness_binary_operands : lvalue (.reg 0) = .ok 0 ∧ rvalue (.lit 32767) State.reset = .ok 32767 ∧
    rvalue (.reg 7) (State.reset.setReg 7 32767) = .ok 32767 := by decide
theorem witness_EqWritesTruthOfEquality : firstOperandFault (.eq (.reg 0) (.lit 0) (.invalid 65535)) State.reset = some (.invalidOperand, 65535) ∧
    lvalue (.reg 0) = .ok 0 ∧ rvalue (.lit 5) State.reset = .ok 5 := by decide
theorem witness_GtWritesTruthOfUnsignedGreater : firstOperandFault (.gt (.reg 0) (.invalid 32776) (.lit 0)) State.reset = some (.invalidOperand, 32776) ∧
    lvalue (.reg 0) = .ok 0 ∧ rvalue (.lit 32767) State.reset = .ok 32767 ∧ rvalue (.lit 0) State.reset = .ok 0 := by decide
theorem witness_AddKeepsSumModulo32768 : firstOperandFault (.add (.lit 32767) (.lit 0) (.lit 0)) State.reset = some (.invalidRegister, 32767) ∧
    lvalue (.reg 0) = .ok 0 ∧ rvalue (.lit 32767) State.reset = .ok 32767 ∧ rvalue (.lit 1) State.reset = .ok 1 := by decide
theorem witness_MultKeepsProductModulo32768 : firstOperandFault (.mult (.lit 8) (.lit 0) (.lit 0)) State.reset = some (.invalidRegister, 8) ∧
    lvalue (.reg 0) = .ok 0 ∧ rvalue (.lit 32767) State.reset = .ok 32767 := by decide
theorem witness_AndKeepsBitwiseAnd : firstOperandFault (.and (.lit 8) (.lit 0) (.lit 0)) State.reset = some (.invalidRegister, 8) ∧
    lvalue (.reg 0) = .ok 0 ∧ rvalue (.lit 32535) State.reset = .ok 32535 ∧ rvalue (.lit 255) State.reset = .ok 255 := by decide
theorem witness_OrKeepsBitwiseOr : firstOperandFault (.or (.lit 8) (.lit 0) (.lit 0)) State.reset = some (.invalidRegister, 8) ∧
    lvalue (.reg 0) = .ok 0 ∧ rvalue (.lit 21845) State.reset = .ok 21845 ∧ rvalue (.lit 10922) State.reset = .ok 10922 := by decide
theorem witness_ModKeepsUnsignedRemainder : lvalue (.reg 0) = .ok 0 ∧ rvalue (.lit 5) State.reset = .ok 5 ∧
    rvalue (.lit 1) State.reset = .ok 1 ∧ (1 : Value).toNat ≠ 0 ∧ rvalue (.lit 0) State.reset = .ok 0 ∧ (0 : Value).toNat = 0 := by decide
theorem witness_NotTwiceRestoresValue : lvalue (.reg 0) = .ok 0 ∧ lvalue (.reg 1) = .ok 1 ∧ rvalue (.lit 232) State.reset = .ok 232 := by decide
theorem witness_PushPutsResolvedValueOnTop : rvalue (.lit 2) (boot [2, 2]) = .ok 2 ∧
    (boot [2, 2]).params.stackCapacity ≠ some (boot [2, 2]).stack.length ∧
    ({ boot [2, 2] with params := ⟨some 0, none, 10⟩ } : State).params.stackCapacity =
      some ({ boot [2, 2] with params := ⟨some 0, none, 10⟩ } : State).stack.length := by decide
theorem witness_CallPushesReturnAddress : rvalue (.lit 2) (boot [17, 2]) = .ok 2 ∧
    (boot [17, 2]).params.stackCapacity ≠ some (boot [17, 2]).stack.length ∧
    ({ boot [17, 2] with params := ⟨some 0, none, 10⟩ } : State).params.stackCapacity =
      some ({ boot [17, 2] with params := ⟨some 0, none, 10⟩ } : State).stack.length := by decide
theorem witness_PopTakesTopOfStack : lvalue (.reg 0) = .ok 0 ∧ State.reset.stack = [] ∧
    (State.reset.setStack [32767]).stack = 32767 :: [] ∧ (32767 : Word).toNat ≤ 32767 ∧
    (State.reset.setStack [32768]).stack = 32768 :: [] ∧ 32767 < (32768 : Word).toNat := by decide
theorem witness_jump_operands : rvalue (.lit 32767) State.reset = .ok 32767 ∧ rvalue (.lit 0) State.reset = .ok 0 ∧
    firstOperandFault (.jmp (.invalid 32776)) State.reset = some (.invalidOperand, 32776) ∧
    firstOperandFault (.jt (.lit 0) (.invalid 32776)) State.reset = some (.invalidOperand, 32776) ∧
    firstOperandFault (.jf (.lit 1) (.invalid 32776)) State.reset = some (.invalidOperand, 32776) ∧
    (32767 : Value).toNat ≠ 0 ∧ (0 : Value).toNat = 0 := by decide
theorem witness_JmpGoesToTarget : rvalue (.lit 32767) State.reset = .ok 32767 := by decide
theorem witness_JtJumpsOnNonZero : rvalue (.lit 1) State.reset = .ok 1 ∧ rvalue (.lit 100) State.reset = .ok 100 ∧
    rvalue (.reg 0) State.reset = .ok 0 := by decide
theorem witness_JfJumpsOnZero : rvalue (.reg 0) State.reset = .ok 0 ∧ rvalue (.lit 100) State.reset = .ok 100 ∧
    rvalue (.lit 1) State.reset = .ok 1 := by decide
theorem witness_RmemMovesStoredWord : lvalue (.reg 0) = .ok 0 ∧ rvalue (.lit 2) (boot [15, 32768, 32767]) = .ok 2 ∧
    (2 : Value).toNat < (boot [15, 32768, 32767]).memLen.toNat ∧ ((boot [15, 32768, 32767]).mem.readWord 2).toNat ≤ 32767 ∧
    32767 < ((boot [15, 32768, 32767]).mem.readWord 1).toNat ∧ (boot [15, 32768, 32767]).memLen.toNat ≤ (3 : Value).toNat := by decide
theorem witness_WmemStoresResolvedValue : rvalue (.lit 3) (boot [16, 3, 7, 0]) = .ok 3 ∧ rvalue (.lit 7) (boot [16, 3, 7, 0]) = .ok 7 ∧
    (3 : Value).toNat < (boot [16, 3, 7, 0]).memLen.toNat ∧ (boot [16, 4, 7, 0]).memLen.toNat ≤ (4 : Value).toNat ∧
    firstOperandFault (.wmem (.invalid 32776) (.lit 0)) State.reset = some (.invalidOperand, 32776) := by decide
theorem witness_NextFetchSeesWmem : rvalue (.lit 3) (boot [16, 3, 21, 0]) = .ok 3 ∧ rvalue (.lit 21) (boot [16, 3, 21, 0]) = .ok 21 ∧
    (3 : Value).toNat = (boot [16, 3, 21, 0]).pc.toNat + 3 ∧ (3 : Value).toNat < (boot [16, 3, 21, 0]).memLen.toNat ∧
    (∃ t, exec (.wmem (.lit 3) (.lit 21)) (boot [16, 3, 21, 0]) = .next t ∧ CoreTurn t t ∧ (Instr.noop).wf = true ∧ StandsAtPc .noop t) ∧
    rvalue (.lit 32767) (boot [16, 3, 32767, 0]) = .ok 32767 ∧ 21 < (32767 : Value).toNat := by
  refine ⟨by decide, by decide, by decide, by decide, ⟨_, rfl, ⟨rfl, .inl ⟨rfl, rfl⟩⟩, rfl, by decide, fun j w h => ?_⟩, by decide, by decide⟩
  rcases j with _ | j
  · cases h; decide
  · cases h
theorem witness_RetPopsIntoPc : (State.reset.setStack [32768]).stack = 32768 :: [] ∧ State.reset.stack = [] := by decide
theorem witness_CallThenRetReturns : (boot [17, 2]).runState ≠ .faulted ∧
    ∃ t, exec (.call (.lit 2)) (boot [17, 2]) = .next t ∧ t.runState ≠ .faulted ∧ ((boot [18]).setStack t.stack).stack = t.stack :=
  ⟨by decide, _, rfl, by decide, rfl⟩
theorem witness_OutAppendsOneCharacter : rvalue (.lit 32767) State.reset = .ok 32767 ∧
    firstOperandFault (.out (.invalid 32776)) State.reset = some (.invalidOperand, 32776) := by decide
theorem witness_InTakesFrontOrWaits : lvalue (.reg 0) = .ok 0 ∧ (State.reset.setQueue [32767, 10]).inputQueue = 32767 :: [10] ∧
    (32767 : Word).toNat ≤ 32767 ∧ State.reset.inputQueue = [] ∧ (State.reset.setQueue [32768]).inputQueue = 32768 :: [] ∧
    32767 < (32768 : Word).toNat := by decide
theorem witness_StandsAtPc_in (h : List HostEvent) : StandsAtPc (.in_ (.reg 0)) (waiting h) := by
  refine ⟨show (0 : Word).toNat + 2 ≤ (4 : Word).toNat by decide, fun j w hj => ?_⟩
  rcases j with _ | _ | j
  · cases hj; exact show (boot [20, 32768, 20, 32769]).mem.readWord 0 = 20 by decide
  · cases hj; exact show (boot [20, 32768, 20, 32769]).mem.readWord 1 = 32768 by decide
  · cases hj
theorem witness_LineRefillsQueueAndCompletesIn : (waiting [.line [32767]]).runState = .waitInput ∧
    (waiting [.line [32767]]).hostEvents = .line [32767] :: [] ∧ (waiting [.answer [32768]]).hostEvents = .answer [32768] :: [] ∧
    (Operand.reg 0).wf = true ∧ StandsAtPc (.in_ (.reg 0)) (waiting [.line [32767]]) ∧ lvalue (.reg 0) = .ok 0 ∧
    (waiting [.line [32767]]).inputQueue = [] ∧ (∀ n, (waiting [.line [32767]]).params.inputLineMax = some n → 1 ≤ n) ∧
    ([32767] : List Word) ++ [(waiting []).params.lineTerminator] = 32767 :: [10] ∧ (32767 : Word).toNat ≤ 32767 ∧
    ([32768] : List Word) ++ [(waiting []).params.lineTerminator] = 32768 :: [10] ∧ 32767 < (32768 : Word).toNat :=
  ⟨rfl, rfl, rfl, rfl, witness_StandsAtPc_in _, lvalue_reg 0, rfl, (fun n h => by cases h),
    rfl, by decide, rfl, by decide⟩
theorem witness_TooLongLineFaults : ({ waiting [.line [1]] with params := ⟨none, some 0, 10⟩ } : State).runState = .waitInput ∧
    ({ waiting [.line [1]] with params := ⟨none, some 0, 10⟩ } : State).hostEvents = .line [1] :: [] ∧
    ({ waiting [.answer [1]] with params := ⟨none, some 0, 10⟩ } : State).hostEvents = .answer [1] :: [] ∧
    ({ waiting [.line [1]] with params := ⟨none, some 0, 10⟩ } : State).params.inputLineMax = some 0 ∧ 0 < ([1] : List Word).length := by decide
theorem witness_LinesCountOnlyWhileWaiting : ((boot [21]).setHost [.line [1]]).hostEvents = .line [1] :: [] ∧
    ((boot [21]).setHost [.line [1]]).runState ≠ .waitInput ∧ (waiting []).runState = .waitInput ∧ (waiting []).hostEvents = [] := by decide
theorem witness_LoadFillsMemoryLittleEndian : (State.reset.setHost [.load [0x34, 0x12]]).runState = .load ∧
    (State.reset.setHost [.load [0x34, 0x12]]).hostEvents = .load [0x34, 0x12] :: [] ∧ ([0x34, 0x12] : List Byte).length ≠ 0 ∧
    ([0x34, 0x12] : List Byte).length % 2 = 0 ∧ ([0x34, 0x12] : List Byte).length / 2 ≤ 32768 ∧
    ([0x34, 0x12] : List Byte)[2 * 0]? = some 0x34 ∧ ([0x34, 0x12] : List Byte)[2 * 0 + 1]? = some 0x12 := by decide
theorem witness_MalformedImageFaults : (State.reset.setHost [.load []]).runState = .load ∧
    (State.reset.setHost [.load []]).hostEvents = .load [] :: [] ∧ ([] : List Byte).length = 0 ∧ ([0] : List Byte).length % 2 = 1 ∧
    (List.replicate 65538 (0 : Byte)).length % 2 = 0 ∧ 32768 < (List.replicate 65538 (0 : Byte)).length / 2 := by
  simp only [List.length_replicate]; decide
theorem witness_ResetGivesTableValues : ((boot [21]).setHost [.reset, .quiet]).hostEvents = .reset :: [.quiet] := by decide
theorem witness_OnlyResetLeavesHaltedAndFaulted : ((boot [0]).setRunState .halted).runState = .halted ∧
    ((boot [0]).setRunState .halted).hostEvents = [] ∧ ((boot [0]).setRunState .faulted).runState = .faulted ∧
    ∃ t, step (((boot [0]).setRunState .halted).setHost [.quiet]) = .next t := ⟨rfl, rfl, rfl, _, rfl⟩
theorem witness_OnlyWriteOperandRegisterChanges : ∃ t, exec (.set (.reg 7) (.lit 5)) (boot [0]) = .next t ∧ t.reg 7 ≠ (boot [0]).reg 7 :=
  ⟨_, rfl, by decide⟩
theorem witness_OnlyWmemChangesMemory : ∃ t, exec (.wmem (.lit 1) (.lit 32767)) (boot [0, 0]) = .next t ∧
    t.mem.readByte 2 ≠ (boot [0, 0]).mem.readByte 2 ∧ t.mem.readByte 3 ≠ (boot [0, 0]).mem.readByte 3 := ⟨_, rfl, by decide, by decide⟩
theorem witness_OnlyFourInstructionsTouchStack : ∃ t u, exec (.push (.lit 1)) (boot [0]) = .next t ∧ t.stack ≠ (boot [0]).stack ∧
    exec .ret ((boot [0]).setStack [1]) = .next u ∧ u.stack ≠ ((boot [0]).setStack [1]).stack := ⟨_, _, rfl, by decide, rfl, by decide⟩
theorem witness_OnlyInDequeuesInput : ∃ t, exec (.in_ (.reg 0)) ((boot [0]).setQueue [1]) = .next t ∧
    t.inputQueue ≠ ((boot [0]).setQueue [1]).inputQueue := ⟨_, rfl, by decide⟩
theorem witness_FaultingInstructionCommitsNothing : ∃ t, exec .ret (boot [18]) = .next t ∧ (boot [18]).runState ≠ .faulted ∧
    t.runState = .faulted := ⟨_, rfl, by decide, by decide⟩
theorem witness_InstructionRaisesOnlyItsFaults : ∃ t, exec (.mod (.reg 0) (.lit 5) (.lit 0)) (boot [0]) = .next t ∧
    (boot [0]).runState ≠ .faulted ∧ t.runState = .faulted := ⟨_, rfl, by decide, by decide⟩
theorem witness_SourceFormNeverRaisesOperandFault : (Instr.pop (.reg 0)).sourceForm = true ∧
    ∃ t, exec (.pop (.reg 0)) (boot [0]) = .next t ∧ (boot [0]).runState ≠ .faulted ∧ t.runState = .faulted :=
  ⟨by decide, _, rfl, by decide, by decide⟩
theorem witness_NextPcFollowsRomPolicy : ∃ t, exec (.jf (.lit 0) (.lit 32767)) (boot [0]) = .next t ∧ (boot [0]).runState = .running ∧
    t.runState ≠ .faulted ∧ t.runState ≠ .waitInput := ⟨_, rfl, by decide, by decide, by decide⟩
theorem witness_SequentialPcNeverWraps : CoreTurn (boot [21]) (boot [21]) ∧
    fetch (boot [21]) = .instr .noop ∧ rom[(Instr.noop).opcode.toNat]? = some ⟨"NOOP", [], .seq⟩ ∧
    ∃ t, step (boot [21]) = .next t ∧ t.runState = .running := ⟨(witness_CoreTurn _ rfl rfl).1, by decide, rfl, _, rfl, by decide⟩
theorem witness_StatusAndTraceDoNotInfluenceInstructions : AgreeForPrograms (boot [21]) { boot [21] with faultInfo := 9, trace := [.out 1] } :=
  ⟨rfl, rfl, rfl, rfl, rfl, rfl, rfl, rfl⟩
theorem witness_RunningMachineAlwaysSteps : (boot [21]).runState = .running ∧ ∀ image rest, (boot [21]).hostEvents ≠ .load image :: rest :=
  ⟨rfl, fun _ _ h => by cases h⟩
theorem witness_MemLenFixedForTheRun : (∃ t, step (boot [21]) = .next t) ∧ (boot [21]).runState ≠ .load ∧
    ∀ rest, (boot [21]).hostEvents ≠ .reset :: rest := ⟨⟨_, rfl⟩, by decide, fun _ h => by cases h⟩
theorem witness_TraceOnlyGrowsByOneEvent : (∃ t, step (boot [19, 65]) = .next t) ∧ ∀ rest, (boot [19, 65]).hostEvents ≠ .reset :: rest :=
  ⟨⟨_, rfl⟩, fun _ h => by cases h⟩
theorem witness_HostReadsStatusCodesAndEndState : ((boot [0]).setRunState .halted).runState = .halted ∧
    ((boot [0]).setRunState .faulted).runState = .faulted ∧ (0 : Nat) < ((boot [0]).setRunState .halted).memLen.toNat ∧
    (boot [0]).runState ≠ .halted ∧ (boot [0]).runState ≠ .faulted := by decide
theorem witness_StepKeepsInvariant : RunInvariant (boot [0]) ∧ ∃ t, step (boot [0]) = .next t := by
  refine ⟨⟨by decide, ?_, by decide, by decide, ?_, ?_, ?_, by decide, by decide, fun _ => ⟨rfl, rfl⟩, ?_⟩, _, rfl⟩
  · intro a h
    exact readByte_nil a
  · intro w h
    cases h
  · intro n h
    cases h
  · intro h
    cases h
  · intro h
    cases h

end Sys2Proof.Tests
end

/-! ### Operand words (30_encoding.md) -/

section
open Sys2Proof Sys2Proof.Machine

/-- Settles O1: each row of R73's table is the model's own law for that class of word. -/
theorem operandWordsFallInThreeClasses : Obligations.OperandWordsFallInThreeClasses := by
  intro w
  refine ⟨fun hlit => ?literal, fun hlo hhi => ?register, Operand.ofWord_invalid⟩
  case literal =>
    refine ⟨w.setWidth 15, Operand.ofWord_lit (by omega), ?_⟩
    rw [BitVec.toNat_setWidth, Nat.mod_eq_of_lt (by omega)]
  case register =>
    have hidx : w.toNat - 32768 < 8 := by omega
    exact ⟨⟨w.toNat - 32768, hidx⟩, Operand.ofWord_reg (Nat.add_sub_of_le hlo).symm, rfl⟩

end

/-! ### Machine control (41_machine_control.md) -/

namespace Sys2Proof.Machine

/-- An opcode word above 21 is all a fetch needs to see (R102). -/
theorem fetch_unknown {s : State} (hin : s.pc.toNat < s.memLen.toNat) (hop : 21 < (s.mem.readWord s.pc.toNat).toNat) :
    fetch s = .unknown (s.mem.readWord s.pc.toNat) := by
  simp only [fetch, maxInstrWords, fetchWords_cons hin, decodeWords_unknown hop]

theorem advance_frame (s : State) (width : Word) : FrameBut [.pc] s (s.advance width) := by
  intro part hpart
  cases part
  case pc => exact absurd (List.mem_singleton_self _) hpart
  all_goals rfl

theorem skipUnknown_frame (op : Word) (s : State) : FrameBut [.trace, .pc] s (skipUnknown op s) := by
  intro part hpart
  cases part
  case trace => exact absurd List.mem_cons_self hpart
  case pc => exact absurd (List.mem_cons_of_mem _ (List.mem_singleton_self _)) hpart
  all_goals rfl

/-- A one-word form: there is no shorter beginning of it, and memory cannot end within it. -/
theorem encodedAs_one_word {i : Instr} {op : Word} (hdecode : decodeWords [op] = .ok (i, [])) : EncodedAs i [op] := by
  refine ⟨hdecode, fun n hpos hlt => ?_, fun s _ _ _ hin hend => ?_⟩
  · rw [List.length_singleton] at hlt; omega
  · rw [List.length_singleton] at hend; omega

end Sys2Proof.Machine

section
open Sys2Proof Sys2Proof.Machine

/-- Settles O10: on the CORE's turn the step is `skipUnknown`, and `pc + 1` does not wrap, `pc` being below N. -/
theorem unknownOpcodeIsReportedAndSkipped : Obligations.UnknownOpcodeIsReportedAndSkipped := by
  intro s u hturn hin hop
  have hstep : step s = .next (skipUnknown (s.mem.readWord s.pc.toNat) u) := by
    rw [hturn.step_eq, fetch_unknown hin hop, runFetched]
  refine ⟨_, hstep, ?trace, ?pc, skipUnknown_frame _ u⟩
  case trace => rw [hturn.eq_setHost]; rfl
  case pc =>
    have hpc : u.pc = s.pc := by rw [hturn.eq_setHost, State.setHost_pc]
    rw [skipUnknown_pc, hpc]
    bv_omega

/-- Settles O14: NOOP is the one-word form whose effect is to advance by 1. -/
theorem noopOnlyAdvances : Obligations.NoopOnlyAdvances :=
  ⟨encodedAs_one_word (by decide), fun s => ⟨s.advance 1, rfl, State.advance_pc s 1, advance_frame s 1⟩⟩

end

/-! ### Register move and stack (42_register_stack.md) -/

namespace Sys2Proof.Machine

/-! #### Encodings: the opcode word alone decides where the words are too few -/

/-- An encoding follows from its decoding and from what the opcode answers to too few operand words, whatever those are: where memory
ends within the instruction, the fetch finds just such a beginning (R70, R103). -/
theorem encodedAs_of_short_truncated {i : Instr} {op : Word} {operandWords : List Word}
    (hdecode : decodeWords (op :: operandWords) = .ok (i, []))
    (hshort : ∀ rest, rest.length < operandWords.length → decodeWords (op :: rest) = .error (.truncated (rest.length + 1))) :
    EncodedAs i (op :: operandWords) := by
  refine ⟨hdecode, fun n hpos hlt => ?beginnings, fun s u hturn hop hin hend => ?memoryEnd⟩
  case beginnings =>
    obtain ⟨m, rfl⟩ := Nat.exists_eq_add_one_of_ne_zero hpos.ne'
    have hm : m < operandWords.length := by simpa using hlt
    have hlen : (operandWords.take m).length = m := List.length_take_of_le hm.le
    rw [List.take_succ_cons, hshort _ (by rwa [hlen]), hlen]
  case memoryEnd =>
    have hword : s.mem.readWord s.pc.toNat = op := by simpa using hop.symm
    have hfew : (fetchWords s 3 (s.pc.toNat + 1)).length < operandWords.length := by
      rw [List.length_cons] at hend
      rw [length_fetchWords]; omega
    have hfetch := hshort _ hfew
    rw [← hword, ← fetchWords_cons hin] at hfetch
    exact ⟨_, by rw [hturn.step_eq, fetch, maxInstrWords, hfetch, runFetched], State.raise_runState .., State.raise_faultCause ..⟩

theorem decodeF2_short (mk : Operand → Operand → Instr) {rest : List Word} (h : rest.length < 2) :
    decodeF2 mk rest = .error (.truncated (rest.length + 1)) := by
  match rest, h with
  | [], _ => rfl
  | [_], _ => rfl

/-- A form with two operands: the opcode of format F2 reads exactly two operand words. -/
theorem encodedAs_two_operands {op : Word} {mk : Operand → Operand → Instr}
    (hformat : ∀ rest, decodeWords (op :: rest) = decodeF2 mk rest) (wa wb : Word) :
    EncodedAs (mk (.ofWord wa) (.ofWord wb)) [op, wa, wb] :=
  encodedAs_of_short_truncated (hformat _) fun rest h => (hformat rest).trans (decodeF2_short mk h)

/-! #### Operand faults: the first faulting operand raises, whatever follows it -/

theorem withWrite_operandFault {o : Operand} {rest : List (OperandKind × Operand)} {s : State} {e : Raised} {k : RegIdx → Result}
    (hfault : ((.write, o) :: rest).findSome? (operandFault s) = some e)
    (hrest : ∀ A, rest.findSome? (operandFault s) = some e → k A = .next (s.raise e.1 e.2)) :
    withWrite o s k = .next (s.raise e.1 e.2) := by
  cases ho : lvalue o with
  | ok A => rw [withWrite_ok ho, hrest A (by simpa [operandFault, ho] using hfault)]
  | error e' =>
    obtain rfl : e' = e := by simpa [operandFault, ho] using hfault
    exact withWrite_error ho k

theorem withRead_operandFault {o : Operand} {rest : List (OperandKind × Operand)} {s : State} {e : Raised} {k : Value → Result}
    (hfault : ((.read, o) :: rest).findSome? (operandFault s) = some e)
    (hrest : ∀ A, rest.findSome? (operandFault s) = some e → k A = .next (s.raise e.1 e.2)) :
    withRead o s k = .next (s.raise e.1 e.2) := by
  cases ho : rvalue o s with
  | ok A => rw [withRead_ok ho, hrest A (by simpa [operandFault, ho] using hfault)]
  | error e' =>
    obtain rfl : e' = e := by simpa [operandFault, ho] using hfault
    exact withRead_error ho k

theorem unaryToReg_operandFault {f : Value → Value} {a b : Operand} {s : State} {e : Raised}
    (hfault : [(OperandKind.write, a), (.read, b)].findSome? (operandFault s) = some e) :
    unaryToReg f a b s = .next (s.raise e.1 e.2) :=
  withWrite_operandFault hfault fun _ hb => withRead_operandFault hb fun _ hnone => nomatch hnone

theorem operandFaultsFirst_of_raise {i : Instr} {s : State}
    (h : ∀ e, firstOperandFault i s = some e → exec i s = .next (s.raise e.1 e.2)) : OperandFaultsFirst i s :=
  fun e he => ⟨_, h e he, State.raise_runState .., State.raise_faultCause ..⟩

/-! #### The effect of the unary shape, and its frame -/

theorem unaryToReg_ok {f : Value → Value} {a b : Operand} {s : State} {A : RegIdx} {B : Value}
    (hA : lvalue a = .ok A) (hB : rvalue b s = .ok B) : unaryToReg f a b s = .next ((s.setReg A (f B)).advance 3) := by
  rw [unaryToReg, withWrite_ok hA, withRead_ok hB]

theorem Part.same_trans {part : Part} {s t u : State} (hst : part.same s t) (htu : part.same t u) : part.same s u := by
  cases part <;> exact Eq.trans htu hst

/-- What two updates in a row change is what either changes. -/
theorem FrameBut.trans {first second : List Part} {s t u : State} (hst : FrameBut first s t) (htu : FrameBut second t u) :
    FrameBut (first ++ second) s u := by
  intro part hpart
  rw [List.mem_append, not_or] at hpart
  obtain ⟨hfirst, hsecond⟩ := hpart
  exact Part.same_trans (hst part hfirst) (htu part hsecond)

theorem setReg_frame (s : State) (A : RegIdx) (v : Value) : FrameBut [.reg A] s (s.setReg A v) := by
  intro part hpart
  cases part
  case reg j =>
    have hne : j ≠ A := fun heq => hpart (by rw [heq]; exact List.mem_singleton_self _)
    exact State.reg_setReg_other s A j v hne
  all_goals rfl

end Sys2Proof.Machine

section
open Sys2Proof Sys2Proof.Machine

/-- Settles O15: SET is the unary shape with the identity, its two resolutions in order and then one register write and `pc + 3`. -/
theorem setWritesResolvedValue : Obligations.SetWritesResolvedValue := by
  refine ⟨encodedAs_two_operands fun _ => rfl, fun a b s =>
    ⟨operandFaultsFirst_of_raise fun e hfault => ?fault, fun A B hA hB => ⟨(s.setReg A B).advance 3, ?run, ?reg, ?pc, ?frame⟩⟩⟩
  case fault => exact unaryToReg_operandFault hfault
  case run => exact unaryToReg_ok hA hB
  case reg => rw [State.advance_reg, State.reg_setReg_same]
  case pc => rw [State.advance_pc, State.setReg_pc]
  case frame => exact (setReg_frame s A B).trans (advance_frame _ 3)

end

/-! ### Comparison (43_compare.md) -/

namespace Sys2Proof.Machine

/-! #### The binary shape: EQ, GT and the binary instructions of the ALU -/

theorem decodeF3_short (mk : Operand → Operand → Operand → Instr) {rest : List Word} (h : rest.length < 3) :
    decodeF3 mk rest = .error (.truncated (rest.length + 1)) := by
  match rest, h with
  | [], _ => rfl
  | [_], _ => rfl
  | [_, _], _ => rfl

/-- A form with three operands: the opcode of format F3 reads exactly three operand words. -/
theorem encodedAs_three_operands {op : Word} {mk : Operand → Operand → Operand → Instr}
    (hformat : ∀ rest, decodeWords (op :: rest) = decodeF3 mk rest) (wa wb wc : Word) :
    EncodedAs (mk (.ofWord wa) (.ofWord wb) (.ofWord wc)) [op, wa, wb, wc] :=
  encodedAs_of_short_truncated (hformat _) fun rest h => (hformat rest).trans (decodeF3_short mk h)

theorem binaryToReg_operandFault {f : Value → Value → Value} {a b c : Operand} {s : State} {e : Raised}
    (hfault : [(OperandKind.write, a), (.read, b), (.read, c)].findSome? (operandFault s) = some e) :
    binaryToReg f a b c s = .next (s.raise e.1 e.2) :=
  withWrite_operandFault hfault fun _ hbc => withRead_operandFault hbc fun _ hc =>
    withRead_operandFault hc fun _ hnone => nomatch hnone

theorem binaryToReg_ok {f : Value → Value → Value} {a b c : Operand} {s : State} {A : RegIdx} {B C : Value}
    (hA : lvalue a = .ok A) (hB : rvalue b s = .ok B) (hC : rvalue c s = .ok C) :
    binaryToReg f a b c s = .next ((s.setReg A (f B C)).advance 4) := by
  rw [binaryToReg, withWrite_ok hA, withReads2, withRead_ok hB, withRead_ok hC]

/-- The two outcomes of the binary shape: the first faulting operand's fault, or in register A the number `value B C` that `f` computes,
`pc + 4` and nothing else. -/
theorem binaryToReg_spec {i : Instr} {f : Value → Value → Value} {value : Value → Value → Nat} {a b c : Operand} {s : State}
    (hoperands : i.operands = [(.write, a), (.read, b), (.read, c)]) (hexec : exec i s = binaryToReg f a b c s)
    (hvalue : ∀ B C, (f B C).toNat = value B C) :
    OperandFaultsFirst i s ∧ ∀ A B C, lvalue a = .ok A → rvalue b s = .ok B → rvalue c s = .ok C →
      ∃ t, exec i s = .next t ∧ (t.reg A).toNat = value B C ∧ t.pc = s.pc + 4 ∧ FrameBut [.reg A, .pc] s t := by
  refine ⟨operandFaultsFirst_of_raise fun e hfault => ?fault, fun A B C hA hB hC =>
    ⟨(s.setReg A (f B C)).advance 4, hexec.trans (binaryToReg_ok hA hB hC), ?reg, ?pc, ?frame⟩⟩
  case fault =>
    rw [firstOperandFault, hoperands] at hfault
    rw [hexec, binaryToReg_operandFault hfault]
  case reg => rw [State.advance_reg, State.reg_setReg_same, hvalue]
  case pc => rw [State.advance_pc, State.setReg_pc]
  case frame => exact (setReg_frame s A (f B C)).trans (advance_frame _ 4)

/-! #### Truth values -/

theorem truthValue_decide_toNat (p : Prop) [Decidable p] : (truthValue (decide p)).toNat = if p then 1 else 0 := by
  by_cases hp : p
  · rw [decide_eq_true hp, if_pos hp]; rfl
  · rw [decide_eq_false hp, if_neg hp]; rfl

/-- Equality of values is equality of the numbers they hold. -/
theorem truthValue_beq_toNat (B C : Value) : (truthValue (B == C)).toNat = if B.toNat = C.toNat then 1 else 0 := by
  simp only [← BitVec.toNat_inj, ← truthValue_decide_toNat, beq_eq_decide]

end Sys2Proof.Machine

section
open Sys2Proof Sys2Proof.Machine

/-- Settles O18: EQ is the binary shape with the truth value of equality, which is equality of the two numbers. -/
theorem eqWritesTruthOfEquality : Obligations.EqWritesTruthOfEquality :=
  ⟨encodedAs_three_operands fun _ => rfl, fun _ _ _ _ => binaryToReg_spec rfl rfl truthValue_beq_toNat⟩

/-- Settles O19: GT is the binary shape with the truth value of `C < B` as numbers. -/
theorem gtWritesTruthOfUnsignedGreater : Obligations.GtWritesTruthOfUnsignedGreater :=
  ⟨encodedAs_three_operands fun _ => rfl, fun _ _ _ _ =>
    binaryToReg_spec rfl rfl fun B C => truthValue_decide_toNat (C.toNat < B.toNat)⟩

end

/-! ### Jumps and branches (44_branch.md) -/

namespace Sys2Proof.Machine

theorem decodeF1_short (mk : Operand → Instr) {rest : List Word} (h : rest.length < 1) :
    decodeF1 mk rest = .error (.truncated (rest.length + 1)) := by
  obtain rfl := List.length_eq_zero_iff.mp (Nat.lt_one_iff.mp h)
  rfl

/-- A form with one operand: the opcode of format F1 reads exactly one operand word. -/
theorem encodedAs_one_operand {op : Word} {mk : Operand → Instr} (hformat : ∀ rest, decodeWords (op :: rest) = decodeF1 mk rest)
    (wa : Word) : EncodedAs (mk (.ofWord wa)) [op, wa] :=
  encodedAs_of_short_truncated (hformat _) fun rest h => (hformat rest).trans (decodeF1_short mk h)

theorem setPc_frame (s : State) (target : Word) : FrameBut [.pc] s (s.setPc target) := by
  intro part hpart
  cases part
  case pc => exact absurd (List.mem_singleton_self _) hpart
  all_goals rfl

theorem execJmp_operandFault {a : Operand} {s : State} {e : Raised} (hfault : firstOperandFault (.jmp a) s = some e) :
    execJmp a s = .next (s.raise e.1 e.2) :=
  withRead_operandFault hfault fun _ hnone => nomatch hnone

theorem execJmp_ok {a : Operand} {s : State} {A : Value} (hA : rvalue a s = .ok A) :
    execJmp a s = .next (s.setPc (A.setWidth 16)) :=
  withRead_ok hA _

end Sys2Proof.Machine

section
open Sys2Proof Sys2Proof.Machine

/-- Settles O20: JMP resolves its one operand and sets pc to it; a value has 15 bits, so as a word it is the same number. -/
theorem jmpGoesToTarget : Obligations.JmpGoesToTarget := by
  refine ⟨encodedAs_one_operand fun _ => rfl, fun a s =>
    ⟨operandFaultsFirst_of_raise fun _ hfault => execJmp_operandFault hfault, fun A hA =>
      ⟨s.setPc (A.setWidth 16), execJmp_ok hA, ?pc, setPc_frame s _⟩⟩⟩
  case pc => rw [State.setPc_pc, BitVec.toNat_setWidth_of_le (by decide)]

end

/-! ### Arithmetic and logic (45_alu.md) -/

namespace Sys2Proof.Machine

/-! #### The numbers the ALU computes (R176) -/

theorem aluAdd_toNat (B C : Value) : (aluAdd B C).toNat = (B.toNat + C.toNat) % 32768 := by
  rw [aluAdd, BitVec.toNat_ofNat, modulus, Nat.mod_mod]

theorem aluMult_toNat (B C : Value) : (aluMult B C).toNat = (B.toNat * C.toNat) % 32768 := by
  rw [aluMult, BitVec.toNat_ofNat, modulus, Nat.mod_mod]

/-- `32767 - B` is below 32768, so keeping 15 bits of it loses nothing. -/
theorem aluNot_toNat (B : Value) : (aluNot B).toNat = 32767 - B.toNat := by
  rw [aluNot, BitVec.toNat_ofNat, Nat.mod_eq_of_lt (by omega)]

/-- The two outcomes of the unary shape: the first faulting operand's fault, or in register A the number `value B` that `f` computes,
`pc + 3` and nothing else. -/
theorem unaryToReg_spec {i : Instr} {f : Value → Value} {value : Value → Nat} {a b : Operand} {s : State}
    (hoperands : i.operands = [(.write, a), (.read, b)]) (hexec : exec i s = unaryToReg f a b s)
    (hvalue : ∀ B, (f B).toNat = value B) :
    OperandFaultsFirst i s ∧ ∀ A B, lvalue a = .ok A → rvalue b s = .ok B →
      ∃ t, exec i s = .next t ∧ (t.reg A).toNat = value B ∧ t.pc = s.pc + 3 ∧ FrameBut [.reg A, .pc] s t := by
  refine ⟨operandFaultsFirst_of_raise fun e hfault => ?fault, fun A B hA hB =>
    ⟨(s.setReg A (f B)).advance 3, hexec.trans (unaryToReg_ok hA hB), ?reg, ?pc, ?frame⟩⟩
  case fault =>
    rw [firstOperandFault, hoperands] at hfault
    rw [hexec, unaryToReg_operandFault hfault]
  case reg => rw [State.advance_reg, State.reg_setReg_same, hvalue]
  case pc => rw [State.advance_pc, State.setReg_pc]
  case frame => exact (setReg_frame s A (f B)).trans (advance_frame _ 3)

end Sys2Proof.Machine

section
open Sys2Proof Sys2Proof.Machine

/-- Settles O23: ADD is the binary shape with the exact sum reduced modulo 32768. -/
theorem addKeepsSumModulo32768 : Obligations.AddKeepsSumModulo32768 :=
  ⟨encodedAs_three_operands fun _ => rfl, fun _ _ _ _ => binaryToReg_spec rfl rfl aluAdd_toNat⟩

/-- Settles O24: MULT is the binary shape with the exact product reduced modulo 32768. -/
theorem multKeepsProductModulo32768 : Obligations.MultKeepsProductModulo32768 :=
  ⟨encodedAs_three_operands fun _ => rfl, fun _ _ _ _ => binaryToReg_spec rfl rfl aluMult_toNat⟩

/-- Settles O26: AND is the binary shape with `&&&`, which on 15-bit values is `&&&` of their numbers. -/
theorem andKeepsBitwiseAnd : Obligations.AndKeepsBitwiseAnd :=
  ⟨encodedAs_three_operands fun _ => rfl, fun _ _ _ _ => binaryToReg_spec rfl rfl BitVec.toNat_and⟩

/-- Settles O27: OR is the binary shape with `|||`, which on 15-bit values is `|||` of their numbers. -/
theorem orKeepsBitwiseOr : Obligations.OrKeepsBitwiseOr :=
  ⟨encodedAs_three_operands fun _ => rfl, fun _ _ _ _ => binaryToReg_spec rfl rfl BitVec.toNat_or⟩

/-- Settles O28: NOT is the unary shape with `32767 - B`. -/
theorem notKeepsFifteenBitComplement : Obligations.NotKeepsFifteenBitComplement :=
  ⟨encodedAs_two_operands fun _ => rfl, fun _ _ _ => unaryToReg_spec rfl rfl aluNot_toNat⟩

end

/-! ### Memory access (46_memory_access.md) -/

namespace Sys2Proof.Machine

theorem withReads2_ok {a b : Operand} {s : State} {A B : Value} (hA : rvalue a s = .ok A) (hB : rvalue b s = .ok B)
    (k : Value → Value → Result) : withReads2 a b s k = k A B := by
  rw [withReads2, withRead_ok hA, withRead_ok hB]

theorem withReads2_operandFault {a b : Operand} {s : State} {e : Raised} {k : Value → Value → Result}
    (hfault : [(OperandKind.read, a), (.read, b)].findSome? (operandFault s) = some e) :
    withReads2 a b s k = .next (s.raise e.1 e.2) :=
  withRead_operandFault hfault fun _ hb => withRead_operandFault hb fun _ hnone => nomatch hnone

theorem execWmem_inMemory {a b : Operand} {s : State} {A B : Value} (hA : rvalue a s = .ok A) (hB : rvalue b s = .ok B)
    (hin : A.toNat < s.memLen.toNat) :
    execWmem a b s = .next ((s.setMem (s.mem.writeWord A.toNat (B.setWidth 16))).advance 3) := by
  rw [execWmem, withReads2_ok hA hB, if_pos (State.inMemory_iff.2 hin)]

theorem execWmem_beyondMemory {a b : Operand} {s : State} {A B : Value} (hA : rvalue a s = .ok A) (hB : rvalue b s = .ok B)
    (hout : s.memLen.toNat ≤ A.toNat) : execWmem a b s = .next (s.raise .memoryRange (A.setWidth 16)) := by
  rw [execWmem, withReads2_ok hA hB, if_neg (by rw [State.inMemory_iff]; exact Nat.not_lt.2 hout)]

/-- Of memory, a word write changes the word's own two bytes (R53). -/
theorem setMem_writeWord_frame (s : State) (addr : Nat) (w : Word) :
    FrameBut [.byte (2 * addr), .byte (2 * addr + 1)] s (s.setMem (s.mem.writeWord addr w)) := by
  intro part hpart
  cases part
  case byte x =>
    have hlow : x ≠ 2 * addr := fun heq => hpart (by simp [heq])
    have hhigh : x ≠ 2 * addr + 1 := fun heq => hpart (by simp [heq])
    rw [Part.same, State.setMem_mem, readByte_writeWord, if_neg hlow, if_neg hhigh]
  all_goals rfl

end Sys2Proof.Machine

section
open Sys2Proof Sys2Proof.Machine

/-- Settles O31: WMEM resolves its two operands in order, then the range check of A decides between one word write and the fault. -/
theorem wmemStoresResolvedValue : Obligations.WmemStoresResolvedValue := by
  refine ⟨encodedAs_two_operands fun _ => rfl, fun a b s =>
    ⟨operandFaultsFirst_of_raise fun _ hfault => withReads2_operandFault hfault, fun A B hA hB =>
      ⟨fun hin => ⟨_, execWmem_inMemory hA hB hin, ?word, ?pc, ?frame⟩, fun hout => ⟨_, execWmem_beyondMemory hA hB hout, ?fault⟩⟩⟩⟩
  case word => rw [State.advance_mem, State.setMem_mem, readWord_writeWord, if_pos rfl, BitVec.toNat_setWidth_of_le (by decide)]
  case pc => rw [State.advance_pc, State.setMem_pc]
  case frame => exact (setMem_writeWord_frame s A.toNat (B.setWidth 16)).trans (advance_frame _ 3)
  case fault => exact ⟨State.raise_runState .., State.raise_faultCause .., State.raise_faultInfo ..⟩

end

/-! ### Call and return (47_call_return.md) -/

namespace Sys2Proof.Machine

theorem setStack_frame (s : State) (st : List Word) : FrameBut [.stack] s (s.setStack st) := by
  intro part hpart
  cases part
  case stack => exact absurd (List.mem_singleton_self _) hpart
  all_goals rfl

theorem execRet_empty {s : State} (hs : s.stack = []) : execRet s = .next (s.raise .stackUnderflow 0) := by
  rw [execRet, hs]

theorem execRet_cons {s : State} {target : Word} {rest : List Word} (hs : s.stack = target :: rest) :
    execRet s = .next ((s.setStack rest).setPc target) := by
  rw [execRet, hs]

end Sys2Proof.Machine

section
open Sys2Proof Sys2Proof.Machine

/-- Settles O34: RET is a one-word form, and whether the stack is empty decides between the fault and the pop into pc. -/
theorem retPopsIntoPc : Obligations.RetPopsIntoPc := by
  refine ⟨encodedAs_one_word (by decide), fun s =>
    ⟨fun w rest hs => ⟨_, execRet_cons hs, State.setPc_pc .., ?stack, ?frame⟩, fun hs => ⟨_, execRet_empty hs, ?fault⟩⟩⟩
  case stack => rw [State.setPc_stack, State.setStack_stack]
  case frame => exact (setStack_frame s rest).trans (setPc_frame _ w)
  case fault => exact ⟨State.raise_runState .., State.raise_faultCause .., State.raise_faultInfo ..⟩

end

/-! ### Input and output (48_io.md) -/

namespace Sys2Proof.Machine

theorem emit_frame (s : State) (e : IoEvent) : FrameBut [.trace] s (s.emit e) := by
  intro part hpart
  cases part
  case trace => exact absurd (List.mem_singleton_self _) hpart
  all_goals rfl

theorem execOut_operandFault {a : Operand} {s : State} {e : Raised} (hfault : firstOperandFault (.out a) s = some e) :
    execOut a s = .next (s.raise e.1 e.2) :=
  withRead_operandFault hfault fun _ hnone => nomatch hnone

theorem execOut_ok {a : Operand} {s : State} {A : Value} (hA : rvalue a s = .ok A) :
    execOut a s = .next ((s.emit (.out A)).advance 2) :=
  withRead_ok hA _

end Sys2Proof.Machine

section
open Sys2Proof Sys2Proof.Machine

/-- Settles O36: OUT resolves its one operand, then emits one event and advances by 2. -/
theorem outAppendsOneCharacter : Obligations.OutAppendsOneCharacter := by
  refine ⟨encodedAs_one_operand fun _ => rfl, fun a s =>
    ⟨operandFaultsFirst_of_raise fun _ hfault => execOut_operandFault hfault, fun A hA =>
      ⟨(s.emit (.out A)).advance 2, execOut_ok hA, ?trace, ?pc, ?frame⟩⟩⟩
  case trace => rw [State.advance_trace, State.emit_trace]
  case pc => rw [State.advance_pc, State.emit_pc]
  case frame => exact (emit_frame s (.out A)).trans (advance_frame _ 2)

end

/-! ### HALTED and FAULTED (60_exceptions.md) -/

namespace Sys2Proof.Machine

theorem setHost_frame (s : State) (h : List HostEvent) : FrameBut [.hostEvents] s (s.setHost h) := by
  intro part hpart
  cases part
  case hostEvents => exact absurd (List.mem_singleton_self _) hpart
  all_goals rfl

/-- Once the machine has stopped, a step has a next state only by a host event: a RESET, or an event that is only consumed. -/
theorem step_next_of_stopped {s t : State} (hstop : s.runState = .halted ∨ s.runState = .faulted) (h : step s = .next t) :
    ∃ e rest, s.hostEvents = e :: rest ∧ (e = .reset ∨ t = s.setHost rest) := by
  have hne : ∀ r, r ≠ .halted → r ≠ .faulted → s.runState ≠ r := by
    rintro r hhalted hfaulted rfl
    exact hstop.elim hhalted hfaulted
  obtain ⟨_, _, hrun, _⟩ | ⟨rest, he, _⟩ | ⟨_, _, _, hload, _⟩ | ⟨_, _, _, hwait, _⟩ | ⟨e, rest, he, _, ht⟩ := step_next h
  case inl => exact absurd hrun (hne .running nofun nofun)
  case inr.inl => exact ⟨.reset, rest, he, .inl rfl⟩
  case inr.inr.inl => exact absurd hload (hne .load nofun nofun)
  case inr.inr.inr.inl => exact absurd hwait (hne .waitInput nofun nofun)
  case inr.inr.inr.inr => exact ⟨e, rest, he, .inr ht⟩

end Sys2Proof.Machine

section
open Sys2Proof Sys2Proof.Machine

/-- Settles O44: a step out of a stopped machine needs a host event, and one that is no RESET is only consumed. -/
theorem onlyResetLeavesHaltedAndFaulted : Obligations.OnlyResetLeavesHaltedAndFaulted := by
  intro s hstop
  refine ⟨fun hquiet t hstep => ?noStep, fun t hstep hreset => ?consumed⟩
  case noStep =>
    obtain ⟨e, rest, he, _⟩ := step_next_of_stopped hstop hstep
    exact absurd (he.symm.trans hquiet) (List.cons_ne_nil e rest)
  case consumed =>
    obtain ⟨_, rest, he, rfl | rfl⟩ := step_next_of_stopped hstop hstep
    · exact absurd he (hreset rest)
    · exact setHost_frame s rest

end

/-! ### Encoding and decoding (30_encoding.md) -/

namespace Sys2Proof.Machine

/-! #### Decoding an encoding: one law per format -/

theorem decodeF1_toWord (mk : Operand → Instr) {a : Operand} (ha : a.wf = true) (rest : List Word) :
    decodeF1 mk (a.toWord :: rest) = .ok (mk a, rest) := by
  rw [decodeF1, Operand.ofWord_toWord ha]

theorem decodeF2_toWord (mk : Operand → Operand → Instr) {a b : Operand} (hwf : ([a, b].all Operand.wf) = true) (rest : List Word) :
    decodeF2 mk (a.toWord :: b.toWord :: rest) = .ok (mk a b, rest) := by
  obtain ⟨ha, hb⟩ : a.wf = true ∧ b.wf = true := by simpa using hwf
  rw [decodeF2, Operand.ofWord_toWord ha, Operand.ofWord_toWord hb]

theorem decodeF3_toWord (mk : Operand → Operand → Operand → Instr) {a b c : Operand} (hwf : ([a, b, c].all Operand.wf) = true)
    (rest : List Word) : decodeF3 mk (a.toWord :: b.toWord :: c.toWord :: rest) = .ok (mk a b c, rest) := by
  obtain ⟨ha, hb, hc⟩ : a.wf = true ∧ b.wf = true ∧ c.wf = true := by simpa using hwf
  rw [decodeF3, Operand.ofWord_toWord ha, Operand.ofWord_toWord hb, Operand.ofWord_toWord hc]

/-- The decoder reads an encoding back, whatever words follow: the opcode selects the format, and the format's law does the rest. -/
theorem decodeWords_encode {i : Instr} (hwf : i.wf = true) (rest : List Word) : decodeWords (encode i ++ rest) = .ok (i, rest) := by
  cases i with
  | halt | ret | noop => rfl
  | push a | pop a | jmp a | call a | out a | in_ a => exact decodeF1_toWord _ (by simpa [Instr.wf, Instr.operands] using hwf) rest
  | set a b | jt a b | jf a b | not a b | rmem a b | wmem a b => exact decodeF2_toWord _ hwf rest
  | eq a b c | gt a b c | add a b c | mult a b c | mod a b c | and a b c | or a b c => exact decodeF3_toWord _ hwf rest

/-! #### The row of an opcode: its ROM entry and what its format's decoder answers -/

/-- The ROM's entry at `op` says how many operand words `op` takes and of which kinds, and the decoder takes just those (R71, R80). -/
def DecodesByRom (op : Word) : Prop :=
  ∃ e, rom[op.toNat]? = some e ∧ ∀ rest : List Word,
    (rest.length < e.k → decodeWords (op :: rest) = .error (.truncated (rest.length + 1))) ∧
    (e.k ≤ rest.length → ∃ i, decodeWords (op :: rest) = .ok (i, rest.drop e.k) ∧ i.opcode = op ∧
      i.operands.map Prod.fst = e.kinds ∧ i.operands.map Prod.snd = (rest.take e.k).map Operand.ofWord)

theorem decodesByRom_F0 {op : Word} (i : Instr) {name : String} {policy : PcPolicy} (hrom : rom[op.toNat]? = some ⟨name, [], policy⟩)
    (hformat : ∀ rest, decodeWords (op :: rest) = decodeF0 i rest) (hop : i.opcode = op) (hoperands : i.operands = []) :
    DecodesByRom op := by
  refine ⟨_, hrom, fun rest => ⟨fun hshort => absurd hshort (Nat.not_lt_zero _), fun _ => ⟨i, hformat rest, hop, ?kinds, ?words⟩⟩⟩
  case kinds => rw [hoperands]; rfl
  case words => rw [hoperands]; rfl

theorem decodesByRom_F1 {op : Word} (mk : Operand → Instr) {name : String} {ka : OperandKind} {policy : PcPolicy}
    (hrom : rom[op.toNat]? = some ⟨name, [ka], policy⟩) (hformat : ∀ rest, decodeWords (op :: rest) = decodeF1 mk rest)
    (hop : ∀ a, (mk a).opcode = op) (hoperands : ∀ a, (mk a).operands = [(ka, a)]) : DecodesByRom op := by
  refine ⟨_, hrom, fun rest => ⟨fun hshort => (hformat rest).trans (decodeF1_short mk hshort), fun henough => ?_⟩⟩
  match rest, henough with
  | a :: rest, _ => exact ⟨_, hformat _, hop _, by rw [hoperands]; rfl, by rw [hoperands]; rfl⟩

theorem decodesByRom_F2 {op : Word} (mk : Operand → Operand → Instr) {name : String} {ka kb : OperandKind} {policy : PcPolicy}
    (hrom : rom[op.toNat]? = some ⟨name, [ka, kb], policy⟩) (hformat : ∀ rest, decodeWords (op :: rest) = decodeF2 mk rest)
    (hop : ∀ a b, (mk a b).opcode = op) (hoperands : ∀ a b, (mk a b).operands = [(ka, a), (kb, b)]) : DecodesByRom op := by
  refine ⟨_, hrom, fun rest => ⟨fun hshort => (hformat rest).trans (decodeF2_short mk hshort), fun henough => ?_⟩⟩
  match rest, henough with
  | a :: b :: rest, _ => exact ⟨_, hformat _, hop _ _, by rw [hoperands]; rfl, by rw [hoperands]; rfl⟩

theorem decodesByRom_F3 {op : Word} (mk : Operand → Operand → Operand → Instr) {name : String} {ka kb kc : OperandKind}
    {policy : PcPolicy} (hrom : rom[op.toNat]? = some ⟨name, [ka, kb, kc], policy⟩)
    (hformat : ∀ rest, decodeWords (op :: rest) = decodeF3 mk rest) (hop : ∀ a b c, (mk a b c).opcode = op)
    (hoperands : ∀ a b c, (mk a b c).operands = [(ka, a), (kb, b), (kc, c)]) : DecodesByRom op := by
  refine ⟨_, hrom, fun rest => ⟨fun hshort => (hformat rest).trans (decodeF3_short mk hshort), fun henough => ?_⟩⟩
  match rest, henough with
  | a :: b :: c :: rest, _ => exact ⟨_, hformat _, hop _ _ _, by rw [hoperands]; rfl, by rw [hoperands]; rfl⟩

/-- Every opcode of the table has its row; the opcodes are taken in the order of R77. -/
theorem decodesByRom {op : Word} (h : op.toNat ≤ 21) : DecodesByRom op := by
  obtain ⟨n, hn, rfl⟩ := opcode_of_le h
  interval_cases n
  · exact decodesByRom_F0 .halt rfl (fun _ => rfl) rfl rfl
  · exact decodesByRom_F2 .set rfl (fun _ => rfl) (fun _ _ => rfl) fun _ _ => rfl
  · exact decodesByRom_F1 .push rfl (fun _ => rfl) (fun _ => rfl) fun _ => rfl
  · exact decodesByRom_F1 .pop rfl (fun _ => rfl) (fun _ => rfl) fun _ => rfl
  · exact decodesByRom_F3 .eq rfl (fun _ => rfl) (fun _ _ _ => rfl) fun _ _ _ => rfl
  · exact decodesByRom_F3 .gt rfl (fun _ => rfl) (fun _ _ _ => rfl) fun _ _ _ => rfl
  · exact decodesByRom_F1 .jmp rfl (fun _ => rfl) (fun _ => rfl) fun _ => rfl
  · exact decodesByRom_F2 .jt rfl (fun _ => rfl) (fun _ _ => rfl) fun _ _ => rfl
  · exact decodesByRom_F2 .jf rfl (fun _ => rfl) (fun _ _ => rfl) fun _ _ => rfl
  · exact decodesByRom_F3 .add rfl (fun _ => rfl) (fun _ _ _ => rfl) fun _ _ _ => rfl
  · exact decodesByRom_F3 .mult rfl (fun _ => rfl) (fun _ _ _ => rfl) fun _ _ _ => rfl
  · exact decodesByRom_F3 .mod rfl (fun _ => rfl) (fun _ _ _ => rfl) fun _ _ _ => rfl
  · exact decodesByRom_F3 .and rfl (fun _ => rfl) (fun _ _ _ => rfl) fun _ _ _ => rfl
  · exact decodesByRom_F3 .or rfl (fun _ => rfl) (fun _ _ _ => rfl) fun _ _ _ => rfl
  · exact decodesByRom_F2 .not rfl (fun _ => rfl) (fun _ _ => rfl) fun _ _ => rfl
  · exact decodesByRom_F2 .rmem rfl (fun _ => rfl) (fun _ _ => rfl) fun _ _ => rfl
  · exact decodesByRom_F2 .wmem rfl (fun _ => rfl) (fun _ _ => rfl) fun _ _ => rfl
  · exact decodesByRom_F1 .call rfl (fun _ => rfl) (fun _ => rfl) fun _ => rfl
  · exact decodesByRom_F0 .ret rfl (fun _ => rfl) rfl rfl
  · exact decodesByRom_F1 .out rfl (fun _ => rfl) (fun _ => rfl) fun _ => rfl
  · exact decodesByRom_F1 .in_ rfl (fun _ => rfl) (fun _ => rfl) fun _ => rfl
  · exact decodesByRom_F0 .noop rfl (fun _ => rfl) rfl rfl

/-- An opcode word above 21 addresses no entry of the ROM (R78). -/
theorem rom_unknown {op : Word} (h : 21 < op.toNat) : rom[op.toNat]? = none :=
  List.getElem?_eq_none (Nat.succ_le_of_lt h)

/-- An operand that a word stands for is well-formed. -/
theorem wf_of_operands {i : Instr} {ws : List Word} (h : i.operands.map Prod.snd = ws.map Operand.ofWord) : i.wf = true := by
  have hall : (i.operands.map Prod.snd).all Operand.wf = true := by
    rw [h, List.all_map, List.all_eq_true]
    exact fun w _ => Operand.wf_ofWord w
  rwa [List.all_map] at hall

/-- The operands' words are those they were read from. -/
theorem encode_of_operands {i : Instr} {ws : List Word} (h : i.operands.map Prod.snd = ws.map Operand.ofWord) :
    encode i = i.opcode :: ws := by
  refine congrArg (i.opcode :: ·) ?_
  calc i.operands.map (fun o => o.2.toWord) = (i.operands.map Prod.snd).map Operand.toWord := by rw [List.map_map]; rfl
    _ = ws.map (Operand.toWord ∘ Operand.ofWord) := by rw [h, List.map_map]
    _ = ws := by simp [Function.comp_def]

/-- The decoded instruction is well-formed, and its encoding is the words that were read. -/
theorem encode_of_decodeWords {ws rest : List Word} {i : Instr} (hdecode : decodeWords ws = .ok (i, rest)) :
    i.wf = true ∧ encode i ++ rest = ws := by
  cases ws with
  | nil => nomatch hdecode
  | cons op words =>
    have hop : op.toNat ≤ 21 := by
      by_contra hlarge
      rw [decodeWords_unknown (Nat.lt_of_not_le hlarge)] at hdecode
      nomatch hdecode
    obtain ⟨e, -, hread⟩ := decodesByRom hop
    obtain ⟨hshort, hlong⟩ := hread words
    obtain hfew | henough := Nat.lt_or_ge words.length e.k
    · rw [hshort hfew] at hdecode
      nomatch hdecode
    · obtain ⟨j, hj, hopcode, -, hoperands⟩ := hlong henough
      obtain ⟨rfl, rfl⟩ : j = i ∧ words.drop e.k = rest := by simpa [hj] using hdecode
      refine ⟨wf_of_operands hoperands, ?_⟩
      rw [encode_of_operands hoperands, hopcode, List.cons_append, List.take_append_drop]

end Sys2Proof.Machine

section
open Sys2Proof Sys2Proof.Machine

/-- Settles O6: decoding an encoding, case by case on the instruction; the image bytes are those same words. -/
theorem decodeInvertsEncode : Obligations.DecodeInvertsEncode := by
  refine fun i hwf => ⟨decodeWords_encode hwf, ?bytes⟩
  case bytes => rw [decode, encodeBytes, wordsOfBytes_bytesOfWords, ← List.append_nil (encode i), decodeWords_encode hwf]

/-- Settles O7: the opcode's row of the ROM says which words the decoder took, and an operand word keeps every bit. -/
theorem encodeInvertsDecode : Obligations.EncodeInvertsDecode :=
  fun _ _ _ hdecode => encode_of_decodeWords hdecode

/-- Settles O8: an opcode word above 21 has no row, and every other one decodes by its row. -/
theorem opcodeWordAloneGivesLength : Obligations.OpcodeWordAloneGivesLength := by
  refine fun op rest => ⟨fun hlarge => ⟨rom_unknown hlarge, decodeWords_unknown hlarge rest⟩, fun hop => ?_⟩
  obtain ⟨e, hrom, hread⟩ := decodesByRom hop
  exact ⟨e, hrom, hread rest⟩

/-- Settles O5: the seven sequences are closed terms, which the decoder evaluates. -/
theorem opcodeMapWordsDecode : Obligations.OpcodeMapWordsDecode := by
  unfold Obligations.OpcodeMapWordsDecode
  decide

end

/-! ### Resolving an operand word (40_execution_engine.md section 2) -/

namespace Sys2Proof.Machine

theorem lvalue_of_residue {o : Operand} {i : RegIdx} (h : o.toWord.toNat % 32768 = i.val) : lvalue o = .ok i := by
  have hlt : o.toWord.toNat % 32768 < 8 := h ▸ i.isLt
  rw [lvalue, dif_pos hlt]
  exact congrArg Except.ok (Fin.ext h)

theorem lvalue_of_large_residue {o : Operand} (h : 8 ≤ o.toWord.toNat % 32768) : lvalue o = .error (.invalidRegister, o.toWord) := by
  rw [lvalue, dif_neg (Nat.not_lt.2 h)]

end Sys2Proof.Machine

section
open Sys2Proof Sys2Proof.Machine

/-- Settles O2: the class of the word decides what `rvalue` answers. -/
theorem rvalueResolvesReadOperand : Obligations.RvalueResolvesReadOperand := by
  refine fun w s => ⟨fun hlit => ?literal, fun hlo _ i hi => ?register, fun hinvalid => ?invalid⟩
  case literal =>
    obtain ⟨v, hv, hnat⟩ := (operandWordsFallInThreeClasses w).1 hlit
    exact ⟨v, by rw [hv, rvalue_lit], hnat⟩
  case register => rw [Operand.ofWord_reg (i := i) (by omega), rvalue_reg]
  case invalid => rw [Operand.ofWord_invalid hinvalid, rvalue_invalid]

/-- Settles O3: the operand keeps its word, and `lvalue` looks at the word's residue alone. -/
theorem lvalueTakesIndexModulo32768 : Obligations.LvalueTakesIndexModulo32768 := by
  refine fun w => ⟨fun i hi => ?register, fun hlarge => ?fault⟩
  case register => exact lvalue_of_residue (by rw [Operand.toWord_ofWord, hi])
  case fault =>
    rw [lvalue_of_large_residue (by rwa [Operand.toWord_ofWord]), Operand.toWord_ofWord]

end

/-! ### Fault entry, and the fault of the first faulting operand (60_exceptions.md) -/

namespace Sys2Proof.Machine

/-- Fault entry writes RUN_STATE and the fault registers, and nothing else (R236). -/
theorem raiseAt_faultEntry (s : State) (p : Word) (cause : FaultCause) (info : Word) :
    FaultEntry s (s.raiseAt p cause info) p cause info := by
  refine ⟨rfl, rfl, rfl, rfl, ?frame⟩
  intro part hpart
  cases part
  case runState | faultCause | faultPc | faultInfo => exact absurd (by decide) hpart
  all_goals rfl

theorem raise_faultEntry (s : State) (cause : FaultCause) (info : Word) : FaultEntry s (s.raise cause info) s.pc cause info :=
  raiseAt_faultEntry s s.pc cause info

/-- A frame that allows less to change is one that allows more. -/
theorem FrameBut.mono {changed allowed : List Part} {s t : State} (h : FrameBut changed s t) (hsub : changed ⊆ allowed) :
    FrameBut allowed s t :=
  fun part hpart => h part fun hmem => hpart (hsub hmem)

theorem faultsWith_of_raise {i : Instr} {s : State} {cause : FaultCause} {info : Word}
    (h : exec i s = .next (s.raise cause info)) : FaultsWith i s cause info :=
  ⟨_, h, raise_faultEntry s cause info⟩

/-- Every instruction resolves its operands before it does anything else, so the first operand fault is the whole effect (R106). -/
theorem exec_operandFault {i : Instr} {s : State} {e : Raised} (hfault : firstOperandFault i s = some e) :
    exec i s = .next (s.raise e.1 e.2) := by
  cases i with
  | halt | ret | noop => nomatch hfault
  | push a | jmp a | call a | out a => exact withRead_operandFault hfault fun _ hnone => nomatch hnone
  | pop a | in_ a => exact withWrite_operandFault hfault fun _ hnone => nomatch hnone
  | jt a b | jf a b | wmem a b => exact withReads2_operandFault hfault
  | set a b | not a b => exact unaryToReg_operandFault hfault
  | rmem a b => exact withWrite_operandFault hfault fun _ hb => withRead_operandFault hb fun _ hnone => nomatch hnone
  | eq a b c | gt a b c | add a b c | mult a b c | and a b c | or a b c => exact binaryToReg_operandFault hfault
  | mod a b c => exact withWrite_operandFault hfault fun _ hbc => withReads2_operandFault hbc

end Sys2Proof.Machine

section
open Sys2Proof Sys2Proof.Machine

/-- Settles O4: the first operand fault is raised, and raising is fault entry. -/
theorem firstFaultingOperandDecidesFault : Obligations.FirstFaultingOperandDecidesFault :=
  fun _ _ _ hfault => faultsWith_of_raise (exec_operandFault hfault)

end

/-! ### Fetch and step (40_execution_engine.md) -/

namespace Sys2Proof.Machine

theorem rom_k_le {n : Nat} {e : RomEntry} (hrom : rom[n]? = some e) : e.k ≤ 3 := by
  have hall : ∀ e ∈ rom, e.k ≤ 3 := by decide
  exact hall e (List.mem_of_getElem? hrom)

/-- The rows of `Laws.RomRow` as one law over all instructions. -/
theorem romRow : ∀ i : Instr, Laws.RomRow.Statement i
  | .halt => Laws.RomRow.halt
  | .set a b => Laws.RomRow.set a b
  | .push a => Laws.RomRow.push a
  | .pop a => Laws.RomRow.pop a
  | .eq a b c => Laws.RomRow.eq a b c
  | .gt a b c => Laws.RomRow.gt a b c
  | .jmp a => Laws.RomRow.jmp a
  | .jt a b => Laws.RomRow.jt a b
  | .jf a b => Laws.RomRow.jf a b
  | .add a b c => Laws.RomRow.add a b c
  | .mult a b c => Laws.RomRow.mult a b c
  | .mod a b c => Laws.RomRow.mod a b c
  | .and a b c => Laws.RomRow.and a b c
  | .or a b c => Laws.RomRow.or a b c
  | .not a b => Laws.RomRow.not a b
  | .rmem a b => Laws.RomRow.rmem a b
  | .wmem a b => Laws.RomRow.wmem a b
  | .call a => Laws.RomRow.call a
  | .ret => Laws.RomRow.ret
  | .out a => Laws.RomRow.out a
  | .in_ a => Laws.RomRow.in_ a
  | .noop => Laws.RomRow.noop

theorem length_encode_le (i : Instr) : (encode i).length ≤ maxInstrWords := by
  obtain ⟨e, hrom, -, hlen⟩ := romRow i
  have hk := rom_k_le hrom
  rw [hlen, maxInstrWords]; omega

/-- Where the words of an instruction stand at `pc`, the fetch finds the instruction. -/
theorem fetch_of_standsAtPc {i : Instr} {s : State} (hwf : i.wf = true) (hstands : StandsAtPc i s) : fetch s = .instr i := by
  obtain ⟨hlen, hwords⟩ := hstands
  rw [fetch, fetchWords_eq_append (length_encode_le i) hlen hwords, decodeWords_encode hwf]

/-- A `pc` that is not below N finds nothing (R101). -/
theorem fetch_endOfMemory {s : State} (hend : s.memLen.toNat ≤ s.pc.toNat) : fetch s = .endOfMemory := by
  rw [fetch, fetchWords_nil hend]; rfl

theorem opcode_le_of_rom {op : Word} {e : RomEntry} (hrom : rom[op.toNat]? = some e) : op.toNat ≤ 21 := by
  obtain ⟨hlt, -⟩ := List.getElem?_eq_some_iff.1 hrom
  exact Nat.le_of_lt_succ hlt

/-- Where memory ends within the operand words that the opcode's ROM entry asks for, the first missing word is the one at N (R103). -/
theorem fetch_truncated {s : State} {e : RomEntry} (hin : s.pc.toNat < s.memLen.toNat)
    (hrom : rom[(s.mem.readWord s.pc.toNat).toNat]? = some e) (hend : s.memLen.toNat ≤ s.pc.toNat + e.k) :
    fetch s = .truncated s.memLen := by
  have hk := rom_k_le hrom
  have hlen : (fetchWords s 3 (s.pc.toNat + 1)).length = s.memLen.toNat - (s.pc.toNat + 1) := by
    rw [length_fetchWords]; omega
  obtain ⟨e', hrom', hread⟩ := decodesByRom (opcode_le_of_rom hrom)
  obtain rfl : e = e' := Option.some.inj (hrom.symm.trans hrom')
  have hdecode := (hread (fetchWords s 3 (s.pc.toNat + 1))).1 (by omega)
  have haddr : s.pc.toNat + (s.memLen.toNat - (s.pc.toNat + 1) + 1) = s.memLen.toNat := by omega
  rw [fetch, maxInstrWords, fetchWords_cons hin, hdecode, hlen]
  simp only [haddr, BitVec.ofNat_toNat, BitVec.setWidth_eq]

theorem halt_frame (s : State) (cause : HaltCause) : FrameBut [.runState, .haltCause] s (s.halt cause) := by
  intro part hpart
  cases part
  case runState | haltCause => exact absurd (by decide) hpart
  all_goals rfl

/-- On the CORE's turn the step runs the instruction that stands at `pc`. -/
theorem CoreTurn.step_of_standsAtPc {i : Instr} {s u : State} (hturn : CoreTurn s u) (hwf : i.wf = true) (hstands : StandsAtPc i s) :
    step s = exec i u := by
  rw [hturn.step_eq, fetch_of_standsAtPc hwf hstands, runFetched]

end Sys2Proof.Machine

section
open Sys2Proof Sys2Proof.Machine

/-- Settles O9: each of the three forms is a turn of the CORE. -/
theorem stepRunsDecodedInstruction : Obligations.StepRunsDecodedInstruction := by
  intro i s hwf hstands hrun
  have hstep : ∀ u, CoreTurn s u → step s = exec i u := fun u hturn => hturn.step_of_standsAtPc hwf hstands
  exact ⟨fun he => hstep s ⟨hrun, .inl ⟨he, rfl⟩⟩, fun codes rest he => hstep s ⟨hrun, .inr (.inl ⟨codes, rest, he, rfl⟩)⟩,
    fun rest he => hstep _ ⟨hrun, .inr (.inr ⟨rest, he, rfl⟩)⟩⟩

/-- Settles O11: nothing is fetched, and the step is the halt. -/
theorem fetchBeyondMemoryHalts : Obligations.FetchBeyondMemoryHalts := by
  intro s u hturn hend
  exact ⟨u.halt .endOfMemory, by rw [hturn.step_eq, fetch_endOfMemory hend, runFetched], rfl, rfl, halt_frame u _⟩

/-- Settles O12: the fetch reports N as the first missing address, and the step raises with it. -/
theorem truncatedInstructionFaults : Obligations.TruncatedInstructionFaults := by
  intro s u e hturn hin hrom hend
  have hpc : u.pc = s.pc := by rw [hturn.eq_setHost, State.setHost_pc]
  exact ⟨_, by rw [hturn.step_eq, fetch_truncated hin hrom hend, runFetched], hpc ▸ raise_faultEntry u .truncatedInstruction s.memLen⟩

end

/-! ### Rules over all instructions: what may change (10_state.md, 20_memory.md) -/

namespace Sys2Proof.Machine

/-- A register that a write to register A changes is A, so the operand that names A names it. -/
theorem lvalue_of_reg_changed {a : Operand} {A r : RegIdx} {s t : State} (hA : lvalue a = .ok A)
    (hother : r ≠ A → t.reg r = s.reg r) (hne : t.reg r ≠ s.reg r) : lvalue a = .ok r := by
  obtain rfl : r = A := by_contra fun h => hne (hother h)
  exact hA

end Sys2Proof.Machine

section
open Sys2Proof Sys2Proof.Machine

/-- Settles O45: of the effects of all instructions, twelve write a register, the one `lvalue` of their first operand gives. -/
theorem onlyWriteOperandRegisterChanges : Obligations.OnlyWriteOperandRegisterChanges := by
  intro i s t hexec r hne
  cases exec_effect hexec
  case set hA _ | not hA _ | pop hA _ _ | rmem hA _ _ _ | inTake hA _ _ | eq hA _ _ | gt hA _ _ | add hA _ _ | mult hA _ _ | and hA _ _
      | or hA _ _ | mod hA _ _ _ =>
    exact ⟨by simp [Instr.opcode], _, _, rfl, lvalue_of_reg_changed hA (fun hr => by simp [State.reg_setReg_other, hr]) hne⟩
  all_goals exact absurd (by simp) hne

/-- Settles O46: of the effects only that of WMEM replaces memory, by a write of the addressed word. -/
theorem onlyWmemChangesMemory : Obligations.OnlyWmemChangesMemory := by
  intro i s t hexec x hne
  cases exec_effect hexec
  case wmem a b A B hA hB hin =>
    refine ⟨a, b, A, rfl, hA, State.inMemory_iff.1 hin, ?_⟩
    by_contra hx
    obtain ⟨hlow, hhigh⟩ := not_or.1 hx
    exact hne (by rw [State.advance_mem, State.setMem_mem, readByte_writeWord, if_neg hlow, if_neg hhigh])
  all_goals exact absurd (by simp) hne

/-- Settles O47: of the effects two push a word and two take the top word off. -/
theorem onlyFourInstructionsTouchStack : Obligations.OnlyFourInstructionsTouchStack := by
  intro i s t hexec hne
  cases exec_effect hexec
  case push | call => exact .inl ⟨by simp [Instr.opcode], _, rfl⟩
  case pop hs _ | ret hs => exact .inr ⟨by simp [Instr.opcode], _, hs⟩
  all_goals exact absurd (by simp) hne

/-- Settles O48: of the effects only that of an IN with a code to take changes the queue. -/
theorem onlyInDequeuesInput : Obligations.OnlyInDequeuesInput := by
  intro i s t hexec hne
  cases exec_effect hexec
  case inTake a A c q hA hq hc => exact ⟨a, c, rfl, hq⟩
  all_goals exact absurd (by simp) hne

end

/-! ### Rules over all instructions: faults (60_exceptions.md) -/

namespace Sys2Proof.Machine

/-- Why the instruction may raise this cause: one of its operands does, or its own conditions do. -/
def RaisedBy (i : Instr) (s : State) (cause : FaultCause) : Prop :=
  (∃ e, firstOperandFault i s = some e ∧ e.1 = cause) ∨ cause ∈ ownCauses i

theorem RaisedBy.raisable {i : Instr} {s : State} {cause : FaultCause} : RaisedBy i s cause → cause ∈ raisable i
  | .inl ⟨_, hfault, hcause⟩ => hcause ▸ (firstOperandFault_raisable hfault).1
  | .inr hown => List.mem_of_mem_filter hown

theorem none_not_raisable (i : Instr) : .none ∉ raisable i := by
  cases i <;> simp [raisable]

theorem RaisedBy.ne_none {i : Instr} {s : State} {cause : FaultCause} (h : RaisedBy i s cause) : cause ≠ .none := by
  rintro rfl
  exact none_not_raisable i h.raisable

/-- The status registers are the same in both states. -/
def SameStatus (s t : State) : Prop :=
  t.runState = s.runState ∧ t.haltCause = s.haltCause ∧ t.faultCause = s.faultCause ∧ t.faultPc = s.faultPc ∧ t.faultInfo = s.faultInfo

/-- How an instruction leaves the status registers: it faults, it halts, it waits, or it leaves them alone. -/
theorem Effect.status {i : Instr} {s t : State} (h : Effect s i t) :
    (∃ cause info, RaisedBy i s cause ∧ t = s.raise cause info) ∨ (i = .halt ∧ t = (s.advance 1).halt .haltOpcode) ∨
      (∃ a A, i = .in_ a ∧ lvalue a = .ok A ∧ s.inputQueue = [] ∧ t = (s.emit .lineRequest).setRunState .waitInput) ∨
      SameStatus s t := by
  cases h
  case operandFault e hfault => exact .inl ⟨e.1, e.2, .inl ⟨e, hfault, rfl⟩, rfl⟩
  case raised cause info hown => exact .inl ⟨cause, info, .inr hown, rfl⟩
  case halt => exact .inr (.inl ⟨rfl, rfl⟩)
  case inWait a A hA hq => exact .inr (.inr (.inl ⟨a, A, rfl, hA, hq, rfl⟩))
  all_goals exact .inr (.inr (.inr (by simp [SameStatus])))

/-- An instruction that enters FAULTED does so by raising a cause of its own. -/
theorem exec_faulted {i : Instr} {s t : State} (hexec : exec i s = .next t) (hs : s.runState ≠ .faulted) (ht : t.runState = .faulted) :
    ∃ cause info, RaisedBy i s cause ∧ t = s.raise cause info := by
  obtain hraised | ⟨-, rfl⟩ | ⟨a, A, -, -, -, rfl⟩ | ⟨hrun, -⟩ := (exec_effect hexec).status
  · exact hraised
  · nomatch ht
  · nomatch ht
  · exact absurd (hrun.symm.trans ht) hs

/-- No operand in the source's own form faults (R73, R75). -/
theorem firstOperandFault_of_sourceForm {i : Instr} (hform : i.sourceForm = true) (s : State) : firstOperandFault i s = none := by
  have hall : ∀ kind o, (kind, o) ∈ i.operands → o.sourceForm kind = true := fun _ _ ho => List.all_eq_true.1 hform _ ho
  by_contra hsome
  obtain ⟨e, he⟩ := Option.ne_none_iff_exists'.1 hsome
  obtain ⟨o, ho, hfault, -⟩ | ⟨o, ho, hfault, -⟩ := firstOperandFault_some he
  · have hreg := hall _ _ ho
    cases o with
    | reg r => rw [lvalue_reg] at hfault; nomatch hfault
    | lit | invalid => nomatch hreg
  · obtain ⟨w, rfl, -⟩ := rvalue_error hfault
    nomatch hall _ _ ho

theorem ownCauses_not_operandCauses {i : Instr} {cause : FaultCause} (h : cause ∈ ownCauses i) : cause ∉ operandCauses := by
  simpa using (List.mem_filter.1 h).2

end Sys2Proof.Machine

section
open Sys2Proof Sys2Proof.Machine

/-- Settles O49: the instruction raises, and raising is fault entry. -/
theorem faultingInstructionCommitsNothing : Obligations.FaultingInstructionCommitsNothing := by
  intro i s t hexec hs ht
  obtain ⟨cause, info, hraised, rfl⟩ := exec_faulted hexec hs ht
  exact ⟨hraised.ne_none, raise_faultEntry s cause info⟩

/-- Settles O50: an operand's cause and an instruction's own causes are both in the table. -/
theorem instructionRaisesOnlyItsFaults : Obligations.InstructionRaisesOnlyItsFaults := by
  intro i s t hexec hs ht
  obtain ⟨cause, info, hraised, rfl⟩ := exec_faulted hexec hs ht
  exact hraised.raisable

/-- Settles O51: without an operand fault the cause is the instruction's own, and no operand cause is. -/
theorem sourceFormNeverRaisesOperandFault : Obligations.SourceFormNeverRaisesOperandFault := by
  intro i s t hform hexec hs ht
  obtain ⟨cause, info, ⟨e, hfault, -⟩ | hown, rfl⟩ := exec_faulted hexec hs ht
  · rw [firstOperandFault_of_sourceForm hform s] at hfault
    nomatch hfault
  · rw [State.raise_faultCause]
    constructor <;> rintro rfl <;> exact ownCauses_not_operandCauses hown (by decide)

end

/-! ### Rules over all instructions: the next pc (30_encoding.md section 5) -/

namespace Sys2Proof.Machine

theorem isNonZero_eq_decide (v : Value) : isNonZero v = decide (v.toNat ≠ 0) := by
  rw [Bool.eq_iff_iff]
  simp [isNonZero, ← BitVec.toNat_inj]

/-- The width of a sequential instruction is one opcode word and k operand words. -/
theorem advance_pc_of_width (s : State) {width : Word} {k : Nat} (hwidth : width = 1 + BitVec.ofNat 16 k) :
    (s.advance width).pc = s.pc + 1 + BitVec.ofNat 16 k := by
  rw [State.advance_pc, hwidth, BitVec.add_assoc]

end Sys2Proof.Machine

section
open Sys2Proof Sys2Proof.Machine

/-- Settles O52: each effect that neither faults nor waits sets pc as the policy of its instruction's ROM entry says. -/
theorem nextPcFollowsRomPolicy : Obligations.NextPcFollowsRomPolicy := by
  intro i s t hexec _ hfault hwait
  cases exec_effect hexec
  case operandFault | raised => exact absurd rfl hfault
  case inWait => exact absurd rfl hwait
  case halt => exact ⟨_, rfl, rfl⟩
  case jmp hA => exact ⟨_, rfl, _, _, rfl, hA, rfl⟩
  case jt hA hB => exact ⟨_, rfl, _, _, _, _, rfl, hA, hB, by simp [branchIf_pc, isNonZero_eq_decide]⟩
  case jf hA hB => exact ⟨_, rfl, _, _, _, _, rfl, hA, hB, by simp [branchIf_pc, isNonZero_eq_decide]⟩
  case call hA _ => exact ⟨_, rfl, _, _, rfl, hA, rfl, rfl⟩
  case ret hs => exact ⟨_, rfl, hs⟩
  all_goals exact ⟨_, rfl, advance_pc_of_width _ rfl⟩

end

/-! ### Sequential steps and the width of an instruction (40_execution_engine.md section 4) -/

namespace Sys2Proof.Machine

/-- All the words of a fetched instruction are below N (R103). -/
theorem fits_of_fetch {i : Instr} {s : State} (hfetch : fetch s = .instr i) :
    s.pc.toNat + (encode i).length ≤ s.memLen.toNat := by
  cases hdecode : decodeWords (fetchWords s maxInstrWords s.pc.toNat) with
  | error e => cases e <;> simp [fetch, hdecode] at hfetch
  | ok p =>
    obtain ⟨j, rest⟩ := p
    obtain rfl : j = i := by simpa [fetch, hdecode] using hfetch
    have hlen := congrArg List.length (encode_of_decodeWords hdecode).2
    have hone := length_encode j
    rw [List.length_append, length_fetchWords] at hlen
    omega

end Sys2Proof.Machine

section
open Sys2Proof Sys2Proof.Machine

/-- Settles O53: the step is that of the fetched instruction, whose policy moves pc by its width, and the width ends within N. -/
theorem sequentialPcNeverWraps : Obligations.SequentialPcNeverWraps := by
  intro i e s u t hturn hfetch hrom hseq hstep hrun
  have hpc : u.pc = s.pc := by rw [hturn.eq_setHost, State.setHost_pc]
  have hurun : u.runState = .running := by rw [hturn.eq_setHost, State.setHost_runState, hturn.1]
  rw [hturn.step_eq, hfetch, runFetched] at hstep
  obtain ⟨e', hrom', hpolicy⟩ := nextPcFollowsRomPolicy i u t hstep hurun (by simp [hrun]) (by simp [hrun])
  obtain rfl : e = e' := Option.some.inj (hrom.symm.trans hrom')
  have hnext : t.pc = s.pc + 1 + BitVec.ofNat 16 e.k := by simpa [hseq, hpc] using hpolicy
  obtain ⟨e', hrom', -, hlen⟩ := romRow i
  obtain rfl : e = e' := Option.some.inj (hrom.symm.trans hrom')
  have hfits := fits_of_fetch hfetch
  rw [hlen] at hfits
  have hexact : t.pc.toNat = s.pc.toNat + 1 + e.k := by
    rw [hnext]
    bv_omega
  exact ⟨hexact, by omega⟩

end

/-! ### No instruction reads the status registers, the trace or the host's events (10_state.md section 7) -/

namespace Sys2Proof.Machine

/-- Both results are next states, and these agree. -/
def AgreeingResults (r r' : Result) : Prop := ∃ t t', r = .next t ∧ r' = .next t' ∧ AgreeForPrograms t t'

theorem agreeingResults_ite {p : Prop} [Decidable p] {x y x' y' : Result} (hx : AgreeingResults x x') (hy : AgreeingResults y y') :
    AgreeingResults (if p then x else y) (if p then x' else y') := by
  by_cases hp : p
  · rwa [if_pos hp, if_pos hp]
  · rwa [if_neg hp, if_neg hp]

section
variable {s s' : State} (h : AgreeForPrograms s s')
include h

/-! #### The updates keep agreement -/

theorem AgreeForPrograms.setReg (A : RegIdx) (v : Value) : AgreeForPrograms (s.setReg A v) (s'.setReg A v) := by
  obtain ⟨hregs, hrest⟩ := h
  exact ⟨by rw [State.setReg_regs, State.setReg_regs, hregs], hrest⟩

theorem AgreeForPrograms.setPc (target : Word) : AgreeForPrograms (s.setPc target) (s'.setPc target) := by
  obtain ⟨hregs, -, hrest⟩ := h
  exact ⟨hregs, rfl, hrest⟩

theorem AgreeForPrograms.pc_eq : s.pc = s'.pc := by
  obtain ⟨-, hpc, -⟩ := h
  exact hpc

theorem AgreeForPrograms.advance (width : Word) : AgreeForPrograms (s.advance width) (s'.advance width) := by
  rw [State.advance, State.advance, h.pc_eq]
  exact h.setPc _

theorem AgreeForPrograms.setStack (st : List Word) : AgreeForPrograms (s.setStack st) (s'.setStack st) := by
  obtain ⟨hregs, hpc, -, hrest⟩ := h
  exact ⟨hregs, hpc, rfl, hrest⟩

theorem AgreeForPrograms.stack_eq : s.stack = s'.stack := by
  obtain ⟨-, -, hstack, -⟩ := h
  exact hstack

theorem AgreeForPrograms.push (w : Word) : AgreeForPrograms (s.push w) (s'.push w) := by
  rw [State.push, State.push, h.stack_eq]
  exact h.setStack _

theorem AgreeForPrograms.stackFull_eq : s.stackFull = s'.stackFull := by
  obtain ⟨-, -, hstack, -, -, -, -, hparams⟩ := h
  rw [State.stackFull, State.stackFull, hstack, hparams]

theorem AgreeForPrograms.setQueue (q : List Word) : AgreeForPrograms (s.setQueue q) (s'.setQueue q) := by
  obtain ⟨hregs, hpc, hstack, -, hrest⟩ := h
  exact ⟨hregs, hpc, hstack, rfl, hrest⟩

theorem AgreeForPrograms.queue_eq : s.inputQueue = s'.inputQueue := by
  obtain ⟨-, -, -, hqueue, -⟩ := h
  exact hqueue

theorem AgreeForPrograms.setMem (m : Memory) : AgreeForPrograms (s.setMem m) (s'.setMem m) := by
  obtain ⟨hregs, hpc, hstack, hqueue, -, hrest⟩ := h
  exact ⟨hregs, hpc, hstack, hqueue, rfl, hrest⟩

theorem AgreeForPrograms.mem_eq : s.mem = s'.mem := by
  obtain ⟨-, -, -, -, hmem, -⟩ := h
  exact hmem

theorem AgreeForPrograms.inMemory_eq (addr : Nat) : s.inMemory addr = s'.inMemory addr := by
  obtain ⟨-, -, -, -, -, hmemLen, -⟩ := h
  rw [State.inMemory, State.inMemory, hmemLen]

theorem AgreeForPrograms.emit (e : IoEvent) : AgreeForPrograms (s.emit e) (s'.emit e) := h

theorem AgreeForPrograms.setRunState (r : RunState) : AgreeForPrograms (s.setRunState r) (s'.setRunState r) := by
  obtain ⟨hregs, hpc, hstack, hqueue, hmem, hmemLen, -, hparams⟩ := h
  exact ⟨hregs, hpc, hstack, hqueue, hmem, hmemLen, rfl, hparams⟩

theorem AgreeForPrograms.next : AgreeingResults (.next s) (.next s') := ⟨s, s', rfl, rfl, h⟩

theorem AgreeForPrograms.next_raise (cause : FaultCause) (info : Word) :
    AgreeingResults (.next (s.raise cause info)) (.next (s'.raise cause info)) :=
  ⟨_, _, rfl, rfl, h.setRunState .faulted⟩

theorem AgreeForPrograms.branchIf (taken : Bool) (target : Value) :
    AgreeForPrograms (branchIf taken target s) (branchIf taken target s') := by
  cases taken
  case false => exact h.advance 3
  case true => exact h.setPc _

/-! #### The resolving shapes keep agreement -/

theorem AgreeForPrograms.rvalue_eq (o : Operand) : rvalue o s = rvalue o s' := by
  obtain ⟨hregs, -⟩ := h
  cases o with
  | lit | invalid => rfl
  | reg i => rw [rvalue_reg, rvalue_reg, State.reg, State.reg, hregs]

theorem AgreeForPrograms.withRead {o : Operand} {k k' : Value → Result} (hk : ∀ v, AgreeingResults (k v) (k' v)) :
    AgreeingResults (withRead o s k) (withRead o s' k') := by
  cases hr : rvalue o s with
  | ok v => rw [withRead_ok hr, withRead_ok (h.rvalue_eq o ▸ hr)]; exact hk v
  | error e => rw [withRead_error hr, withRead_error (h.rvalue_eq o ▸ hr)]; exact h.next_raise e.1 e.2

theorem AgreeForPrograms.withReads2 {a b : Operand} {k k' : Value → Value → Result}
    (hk : ∀ A B, AgreeingResults (k A B) (k' A B)) : AgreeingResults (withReads2 a b s k) (withReads2 a b s' k') :=
  h.withRead fun A => h.withRead (hk A)

theorem AgreeForPrograms.withWrite {o : Operand} {k k' : RegIdx → Result} (hk : ∀ A, AgreeingResults (k A) (k' A)) :
    AgreeingResults (withWrite o s k) (withWrite o s' k') := by
  cases hl : lvalue o with
  | ok A => rw [withWrite_ok hl, withWrite_ok hl]; exact hk A
  | error e => rw [withWrite_error hl, withWrite_error hl]; exact h.next_raise e.1 e.2

theorem AgreeForPrograms.withRegisterValue (w : Word) {k k' : Value → Result} (hk : ∀ v, AgreeingResults (k v) (k' v)) :
    AgreeingResults (withRegisterValue w s k) (withRegisterValue w s' k') := by
  obtain hover | hfits := Nat.lt_or_ge 32767 w.toNat
  · rw [withRegisterValue_over hover, withRegisterValue_over hover]; exact h.next_raise .wordRange w
  · rw [withRegisterValue_fits hfits, withRegisterValue_fits hfits]; exact hk _

theorem AgreeForPrograms.unaryToReg (f : Value → Value) (a b : Operand) :
    AgreeingResults (unaryToReg f a b s) (unaryToReg f a b s') :=
  h.withWrite fun A => h.withRead fun B => ((h.setReg A (f B)).advance 3).next

theorem AgreeForPrograms.binaryToReg (f : Value → Value → Value) (a b c : Operand) :
    AgreeingResults (binaryToReg f a b c s) (binaryToReg f a b c s') :=
  h.withWrite fun A => h.withReads2 fun B C => ((h.setReg A (f B C)).advance 4).next

/-- Every instruction has a next state, and from agreeing states it has agreeing ones. -/
theorem AgreeForPrograms.exec (i : Instr) : AgreeingResults (exec i s) (exec i s') := by
  cases i with
  | halt => exact AgreeForPrograms.next ((h.advance 1).setRunState .halted)
  | noop => exact (h.advance 1).next
  | set a b | not a b => exact h.unaryToReg _ a b
  | eq a b c | gt a b c | add a b c | mult a b c | and a b c | or a b c => exact h.binaryToReg _ a b c
  | mod a b c =>
    exact h.withWrite fun A => h.withReads2 fun B C => agreeingResults_ite (h.next_raise _ _) ((h.setReg A _).advance 4).next
  | jmp a => exact h.withRead fun A => (h.setPc _).next
  | jt a b | jf a b => exact h.withReads2 fun A B => (h.branchIf _ B).next
  | out a => exact h.withRead fun A => ((h.emit (.out A)).advance 2).next
  | push a =>
    refine h.withRead fun A => ?_
    rw [h.stackFull_eq]
    exact agreeingResults_ite (h.next_raise _ _) ((h.push _).advance 2).next
  | call a =>
    refine h.withRead fun A => ?_
    rw [h.stackFull_eq, h.pc_eq]
    exact agreeingResults_ite (h.next_raise _ _) ((h.push _).setPc _).next
  | pop a =>
    refine h.withWrite fun A => ?_
    rw [h.stack_eq]
    cases s'.stack with
    | nil => exact h.next_raise _ _
    | cons v rest => exact h.withRegisterValue v fun V => (((h.setStack rest).setReg A V).advance 2).next
  | ret =>
    rw [Machine.exec, Machine.exec, execRet, execRet, h.stack_eq]
    cases s'.stack with
    | nil => exact h.next_raise _ _
    | cons target rest => exact ((h.setStack rest).setPc target).next
  | in_ a =>
    refine h.withWrite fun A => ?_
    rw [h.queue_eq]
    cases s'.inputQueue with
    | nil => exact ((h.emit .lineRequest).setRunState .waitInput).next
    | cons c q => exact h.withRegisterValue c fun V => (((h.setQueue q).setReg A V).advance 2).next
  | rmem a b =>
    refine h.withWrite fun A => h.withRead fun B => ?_
    rw [h.inMemory_eq, h.mem_eq]
    exact agreeingResults_ite (h.withRegisterValue _ fun V => ((h.setReg A V).advance 3).next) (h.next_raise _ _)
  | wmem a b =>
    refine h.withReads2 fun A B => ?_
    rw [h.inMemory_eq, h.mem_eq]
    exact agreeingResults_ite ((h.setMem _).advance 3).next (h.next_raise _ _)

end

theorem AgreeForPrograms.refl (s : State) : AgreeForPrograms s s := ⟨rfl, rfl, rfl, rfl, rfl, rfl, rfl, rfl⟩

/-- No instruction stops the machine or is refused. -/
theorem exec_next (i : Instr) (s : State) : ∃ t, exec i s = .next t := by
  obtain ⟨t, -, hexec, -⟩ := (AgreeForPrograms.refl s).exec i
  exact ⟨t, hexec⟩

end Sys2Proof.Machine

section
open Sys2Proof Sys2Proof.Machine

/-- Settles O54: each update keeps agreement, and what decides between two outcomes is the same in agreeing states. -/
theorem statusAndTraceDoNotInfluenceInstructions : Obligations.StatusAndTraceDoNotInfluenceInstructions :=
  fun i _ _ hagree => hagree.exec i

end

/-! ### Every step: progress, MEM_LEN, the trace (10_state.md, 40_execution_engine.md) -/

namespace Sys2Proof.Machine

theorem runFetched_total (s : State) (f : Fetched) : ∃ t, runFetched exec s f = .next t := by
  cases f with
  | endOfMemory | unknown | truncated => exact ⟨_, rfl⟩
  | instr i => exact exec_next i s

/-- Everything the CORE's step on what it fetched can be. -/
theorem runFetched_next {s t : State} {f : Fetched} (h : runFetched exec s f = .next t) :
    (f = .endOfMemory ∧ t = s.halt .endOfMemory) ∨ (∃ op, f = .unknown op ∧ t = skipUnknown op s) ∨
      (∃ addr, f = .truncated addr ∧ t = s.raise .truncatedInstruction addr) ∨ ∃ i, f = .instr i ∧ Effect s i t := by
  cases f with
  | endOfMemory => cases h; exact .inl ⟨rfl, rfl⟩
  | unknown op => cases h; exact .inr (.inl ⟨op, rfl, rfl⟩)
  | truncated addr => cases h; exact .inr (.inr (.inl ⟨addr, rfl, rfl⟩))
  | instr i => exact .inr (.inr (.inr ⟨i, rfl, exec_effect h⟩))

/-! #### Progress -/

theorem CoreTurn.step_total {s u : State} (hturn : CoreTurn s u) : ∃ t, step s = .next t := by
  rw [hturn.step_eq]
  exact runFetched_total u (fetch s)

theorem ne_refused_of_total {result : Result} (h : ∃ t, result = .next t) (r : Refusal) : result ≠ .refused r := by
  obtain ⟨t, rfl⟩ := h
  nofun

theorem coreStep_ne_refused (s : State) (r : Refusal) : coreStep exec s ≠ .refused r := by
  rw [coreStep]
  cases s.runState with
  | running => exact ne_refused_of_total (runFetched_total s (fetch s)) r
  | load | waitInput | halted | faulted => nofun

theorem lineArrives_ne_refused (codes : List Word) (s : State) (r : Refusal) : lineArrives exec codes s ≠ .refused r := by
  rw [lineArrives]
  split
  · nofun
  · split
    · exact ne_refused_of_total (exec_next _ _) r
    · nofun

theorem hostLoad_ne_refused (image : List Byte) (s : State) (r : Refusal) : hostLoad image s ≠ .refused r := by
  rw [hostLoad]
  split <;> nofun

theorem step_ne_refused (s : State) (r : Refusal) : step s ≠ .refused r := by
  rw [step, engineStep]
  cases s.hostEvents with
  | nil => exact coreStep_ne_refused s r
  | cons e rest =>
    cases e with
    | reset => nofun
    | load image => exact hostLoad_ne_refused image _ r
    | line codes =>
      dsimp only
      split
      · exact lineArrives_ne_refused codes _ r
      · nofun
    | answer codes =>
      dsimp only
      split
      · exact lineArrives_ne_refused codes _ r
      · exact coreStep_ne_refused s r
    | quiet =>
      dsimp only
      split
      · exact coreStep_ne_refused _ r
      · nofun

/-! #### What no effect changes -/

theorem Effect.memLen_params {i : Instr} {s t : State} (h : Effect s i t) : t.memLen = s.memLen ∧ t.params = s.params := by
  cases h <;> exact ⟨by simp, by simp⟩

/-- An effect adds one event, or none. -/
theorem Effect.trace_append {i : Instr} {s t : State} (h : Effect s i t) : ∃ evs, t.trace = s.trace ++ evs ∧ evs.length ≤ 1 := by
  cases h
  case out | inWait => exact ⟨[_], rfl, le_rfl⟩
  all_goals exact ⟨[], by simp, Nat.zero_le 1⟩

theorem runFetched_memLen_params {s t : State} {f : Fetched} (h : runFetched exec s f = .next t) :
    t.memLen = s.memLen ∧ t.params = s.params := by
  obtain ⟨-, rfl⟩ | ⟨op, -, rfl⟩ | ⟨addr, -, rfl⟩ | ⟨i, -, heffect⟩ := runFetched_next h
  · exact ⟨rfl, rfl⟩
  · exact ⟨rfl, rfl⟩
  · exact ⟨rfl, rfl⟩
  · exact heffect.memLen_params

theorem runFetched_trace_append {s t : State} {f : Fetched} (h : runFetched exec s f = .next t) :
    ∃ evs, t.trace = s.trace ++ evs ∧ evs.length ≤ 1 := by
  obtain ⟨-, rfl⟩ | ⟨op, -, rfl⟩ | ⟨addr, -, rfl⟩ | ⟨i, -, heffect⟩ := runFetched_next h
  · exact ⟨[], by simp, Nat.zero_le 1⟩
  · exact ⟨[_], rfl, le_rfl⟩
  · exact ⟨[], by simp, Nat.zero_le 1⟩
  · exact heffect.trace_append

theorem lineArrives_memLen_params {codes : List Word} {s t : State} (h : lineArrives exec codes s = .next t) :
    t.memLen = s.memLen ∧ t.params = s.params := by
  obtain ⟨-, rfl⟩ | ⟨-, a, -, hexec⟩ := lineArrives_next h
  · exact ⟨rfl, rfl⟩
  · exact (exec_effect hexec).memLen_params

theorem lineArrives_trace_append {codes : List Word} {s t : State} (h : lineArrives exec codes s = .next t) :
    ∃ evs, t.trace = s.trace ++ evs ∧ evs.length ≤ 1 := by
  obtain ⟨-, rfl⟩ | ⟨-, a, -, hexec⟩ := lineArrives_next h
  · exact ⟨[], by simp, Nat.zero_le 1⟩
  · exact (exec_effect hexec).trace_append

/-! #### The load of an image: the three malformed ones, and a good one (R51) -/

/-- The state a good image gives: memory filled, N set, RUNNING at the start address. -/
def loadedState (image : List Byte) (s : State) : State :=
  { s with mem := Memory.ofBytes 0 image, memLen := BitVec.ofNat 16 (image.length / 2), runState := .running, pc := 0 }

theorem loadImage_empty {image : List Byte} (s : State) (hempty : image.length = 0) :
    loadImage image s = s.raiseAt 0 .malformedImage 0 := by
  rw [loadImage, if_pos hempty]

theorem loadImage_odd {image : List Byte} (s : State) (hodd : image.length % 2 = 1) :
    loadImage image s = s.raiseAt 0 .malformedImage 1 := by
  rw [loadImage, if_neg (by omega), if_pos hodd]

theorem loadImage_large {image : List Byte} (s : State) (heven : image.length % 2 = 0) (hlarge : memMax < image.length / 2) :
    loadImage image s = s.raiseAt 0 .malformedImage 2 := by
  rw [loadImage, if_neg (by omega), if_neg (by omega), if_pos hlarge]

theorem loadImage_good {image : List Byte} (s : State) (hne : image.length ≠ 0) (heven : image.length % 2 = 0)
    (hmax : image.length / 2 ≤ memMax) : loadImage image s = loadedState image s := by
  rw [loadImage, if_neg hne, if_neg (by omega), if_neg (Nat.not_lt.2 hmax), loadedState]

theorem loadImage_cases (image : List Byte) (s : State) :
    (∃ info, loadImage image s = s.raiseAt 0 .malformedImage info) ∨
      (image.length % 2 = 0 ∧ image.length / 2 ≤ memMax ∧ loadImage image s = loadedState image s) := by
  by_cases hempty : image.length = 0
  · exact .inl ⟨0, loadImage_empty s hempty⟩
  obtain heven | hodd := Nat.mod_two_eq_zero_or_one image.length
  · obtain hlarge | hmax := Nat.lt_or_ge memMax (image.length / 2)
    · exact .inl ⟨2, loadImage_large s heven hlarge⟩
    · exact .inr ⟨heven, hmax, loadImage_good s hempty heven hmax⟩
  · exact .inl ⟨1, loadImage_odd s hodd⟩

theorem loadedState_memLen {image : List Byte} (s : State) (hmax : image.length / 2 ≤ memMax) :
    (loadedState image s).memLen.toNat = image.length / 2 := by
  rw [memMax] at hmax
  rw [loadedState, BitVec.toNat_ofNat, Nat.mod_eq_of_lt (by omega)]

theorem loadImage_params_trace (image : List Byte) (s : State) :
    (loadImage image s).params = s.params ∧ (loadImage image s).trace = s.trace := by
  obtain ⟨info, h⟩ | ⟨-, -, h⟩ := loadImage_cases image s <;> rw [h] <;> exact ⟨rfl, rfl⟩

end Sys2Proof.Machine

section
open Sys2Proof Sys2Proof.Machine

/-- Settles O55: in RUNNING every host event but an image leaves a step, and no part of the engine refuses. -/
theorem runningMachineAlwaysSteps : Obligations.RunningMachineAlwaysSteps := by
  refine ⟨fun s hrun hload => ?progress, step_ne_refused⟩
  case progress =>
    match he : s.hostEvents with
    | [] => exact CoreTurn.step_total ⟨hrun, .inl ⟨he, rfl⟩⟩
    | .reset :: rest => exact ⟨(s.setHost rest).resetRun, by rw [step, engineStep, he]⟩
    | .load image :: rest => exact absurd he (hload image rest)
    | .line codes :: rest => exact ⟨s.setHost rest, by rw [step, engineStep, he]; exact if_neg (by simp [hrun])⟩
    | .answer codes :: rest => exact CoreTurn.step_total ⟨hrun, .inr (.inl ⟨codes, rest, he, rfl⟩)⟩
    | .quiet :: rest => exact CoreTurn.step_total ⟨hrun, .inr (.inr ⟨rest, he, rfl⟩)⟩

/-- Settles O56: of the five forms of a step, the load alone writes MEM_LEN and RESET alone clears it. -/
theorem memLenFixedForTheRun : Obligations.MemLenFixedForTheRun := by
  intro s t hstep
  obtain ⟨s', hs', -, -, hcore⟩ | ⟨rest, he, rfl⟩ | ⟨image, rest, -, hload, rfl⟩ | ⟨codes, rest, -, -, hline⟩ |
    ⟨e, rest, -, -, rfl⟩ := step_next hstep
  · obtain ⟨hmemLen, hparams⟩ := runFetched_memLen_params hcore
    obtain rfl | ⟨rest, -, rfl⟩ := hs'
    · exact ⟨hparams, fun _ _ => hmemLen⟩
    · exact ⟨hparams, fun _ _ => hmemLen⟩
  · exact ⟨rfl, fun _ hreset => absurd he (hreset rest)⟩
  · exact ⟨(loadImage_params_trace image _).1, fun hrun => absurd hload hrun⟩
  · obtain ⟨hmemLen, hparams⟩ := lineArrives_memLen_params hline
    exact ⟨hparams, fun _ _ => hmemLen⟩
  · exact ⟨rfl, fun _ _ => rfl⟩

/-- Settles O57: of the five forms of a step, RESET alone drops events, and only the CORE's own step and a line that arrives add one. -/
theorem traceOnlyGrowsByOneEvent : Obligations.TraceOnlyGrowsByOneEvent := by
  intro s t hstep hreset
  obtain ⟨s', hs', -, -, hcore⟩ | ⟨rest, he, -⟩ | ⟨image, rest, -, -, rfl⟩ | ⟨codes, rest, -, -, hline⟩ |
    ⟨e, rest, -, -, rfl⟩ := step_next hstep
  · obtain rfl | ⟨rest, -, rfl⟩ := hs'
    · exact runFetched_trace_append hcore
    · exact runFetched_trace_append (s := s.setHost rest) hcore
  · exact absurd he (hreset rest)
  · exact ⟨[], by rw [(loadImage_params_trace image _).2, State.setHost_trace, List.append_nil], Nat.zero_le 1⟩
  · exact lineArrives_trace_append (s := s.setHost rest) hline
  · exact ⟨[], by simp, Nat.zero_le 1⟩

end

/-! ### The invariant of a run (10_state.md section 8) -/

namespace Sys2Proof.Machine

/-! #### The bounds on the data: memory, pc and stack -/

/-- The clauses of `RunInvariant` that speak of memory, pc and the stack alone. -/
structure DataBounds (s : State) : Prop where
  memCanonical : s.mem.wf = true
  memInside : ∀ a, 2 * s.memLen.toNat ≤ a → s.mem.readByte a = unlistedByte
  memLenMax : s.memLen.toNat ≤ memMax
  pcMax : s.pc.toNat ≤ memMax
  stackEntries : ∀ w ∈ s.stack, w.toNat ≤ memMax
  stackBound : ∀ n, s.params.stackCapacity = some n → s.stack.length ≤ n

theorem RunInvariant.dataBounds {s : State} (h : RunInvariant s) : DataBounds s :=
  ⟨h.memCanonical, h.memInside, h.memLenMax, h.pcMax, h.stackEntries, h.stackBound⟩

/-- The number of a value does not change when it is written as a word. -/
theorem value_setWidth_toNat (v : Value) : (v.setWidth 16).toNat = v.toNat :=
  BitVec.toNat_setWidth_of_le (by decide)

theorem value_le_memMax (v : Value) : (v.setWidth 16).toNat ≤ memMax := by
  rw [value_setWidth_toNat]
  exact v.isLt.le

section
variable {s : State} (h : DataBounds s)
include h

/-- The bounds speak of memory, N, pc, the stack and the parameters only. -/
theorem DataBounds.congr {t : State} (hmem : t.mem = s.mem) (hmemLen : t.memLen = s.memLen) (hpc : t.pc = s.pc)
    (hstack : t.stack = s.stack) (hparams : t.params = s.params) : DataBounds t := by
  obtain ⟨hcanonical, hinside, hmemLenMax, hpcMax, hentries, hbound⟩ := h
  constructor
  case memCanonical => rwa [hmem]
  case memInside => rwa [hmem, hmemLen]
  case memLenMax => rwa [hmemLen]
  case pcMax => rwa [hpc]
  case stackEntries => rwa [hstack]
  case stackBound => rwa [hstack, hparams]

theorem DataBounds.setReg (A : RegIdx) (v : Value) : DataBounds (s.setReg A v) := h.congr rfl rfl rfl rfl rfl

theorem DataBounds.emit (e : IoEvent) : DataBounds (s.emit e) := h.congr rfl rfl rfl rfl rfl

theorem DataBounds.setQueue (q : List Word) : DataBounds (s.setQueue q) := h.congr rfl rfl rfl rfl rfl

theorem DataBounds.setPc {target : Word} (htarget : target.toNat ≤ memMax) : DataBounds (s.setPc target) :=
  { h with pcMax := htarget }

/-- An instruction whose words are below N ends at most at N. -/
theorem DataBounds.advance {width : Word} (hfits : s.pc.toNat + width.toNat ≤ s.memLen.toNat) : DataBounds (s.advance width) := by
  refine h.setPc ?_
  rw [BitVec.toNat_add]
  exact (Nat.mod_le _ _).trans (hfits.trans h.memLenMax)

theorem DataBounds.popStack {w : Word} {rest : List Word} (hstack : s.stack = w :: rest) : DataBounds (s.setStack rest) :=
  { h with
    stackEntries := fun v hv => h.stackEntries v (hstack ▸ List.mem_cons_of_mem w hv)
    stackBound := fun n hn => by
      have hlen := h.stackBound n hn
      rw [hstack] at hlen
      exact Nat.le_of_succ_le hlen }

theorem DataBounds.push {w : Word} (hw : w.toNat ≤ memMax) (hroom : s.stackFull = false) : DataBounds (s.push w) :=
  { h with
    stackEntries := List.forall_mem_cons.2 ⟨hw, h.stackEntries⟩
    stackBound := fun n hn => by
      have hcapacity : s.params.stackCapacity = some n := hn
      have hne : n ≠ s.stack.length := by simpa [State.stackFull, hcapacity] using hroom
      exact Nat.lt_of_le_of_ne (h.stackBound n hcapacity) hne.symm }

/-- A write to a word below N stores nothing beyond N. -/
theorem DataBounds.writeWord {addr : Nat} (w : Word) (hin : addr < s.memLen.toNat) :
    DataBounds (s.setMem (s.mem.writeWord addr w)) :=
  { h with
    memCanonical := wf_writeWord addr w h.memCanonical
    memInside := fun a ha => by
      have hbeyond : 2 * s.memLen.toNat ≤ a := ha
      rw [State.setMem_mem, readByte_writeWord, if_neg (by omega), if_neg (by omega), h.memInside a hbeyond] }

theorem DataBounds.branchIf {taken : Bool} {target : Value} (hfits : s.pc.toNat + 3 ≤ s.memLen.toNat) :
    DataBounds (branchIf taken target s) := by
  cases taken
  case false => exact h.advance hfits
  case true => exact h.setPc (value_le_memMax target)

/-- An instruction whose words are below N keeps the bounds. -/
theorem DataBounds.effect {i : Instr} {t : State} (heffect : Effect s i t)
    (hfits : s.pc.toNat + (encode i).length ≤ s.memLen.toNat) : DataBounds t := by
  cases heffect
  case operandFault | raised | inWait => exact h.congr rfl rfl rfl rfl rfl
  case halt => exact (h.advance (width := 1) hfits).congr rfl rfl rfl rfl rfl
  case noop => exact h.advance hfits
  case set | not | rmem | eq | gt | add | mult | mod | and | or => exact (h.setReg _ _).advance hfits
  case push hroom => exact (h.push (value_le_memMax _) hroom).advance hfits
  case pop hs _ => exact ((h.popStack hs).setReg _ _).advance hfits
  case jmp => exact h.setPc (value_le_memMax _)
  case jt | jf => exact h.branchIf hfits
  case wmem hin => exact (h.writeWord _ (State.inMemory_iff.1 hin)).advance hfits
  case call hroom => exact (h.push (h.advance (width := 2) hfits).pcMax hroom).setPc (value_le_memMax _)
  case ret hs => exact (h.popStack hs).setPc (h.stackEntries _ (hs ▸ List.mem_cons_self))
  case out => exact (h.emit _).advance hfits
  case inTake => exact ((h.setQueue _).setReg _ _).advance hfits

end

/-! #### The status registers -/

/-- No halt and no fault has been recorded. -/
structure StatusClear (s : State) : Prop where
  haltCause : s.haltCause = .none
  faultCause : s.faultCause = .none
  faultPc : s.faultPc = 0
  faultInfo : s.faultInfo = 0

theorem StatusClear.congr {s t : State} (h : StatusClear s) (hhalt : t.haltCause = s.haltCause) (hfault : t.faultCause = s.faultCause)
    (hpc : t.faultPc = s.faultPc) (hinfo : t.faultInfo = s.faultInfo) : StatusClear t :=
  ⟨hhalt.trans h.haltCause, hfault.trans h.faultCause, hpc.trans h.faultPc, hinfo.trans h.faultInfo⟩

theorem RunInvariant.statusClear {s : State} (h : RunInvariant s) (hhalted : s.runState ≠ .halted) (hfaulted : s.runState ≠ .faulted) :
    StatusClear s := by
  have hcause : s.faultCause = .none := not_not.1 fun hne => hfaulted (h.faultCauseIff.1 hne)
  obtain ⟨hpc, hinfo⟩ := h.faultRegsClear hcause
  exact ⟨not_not.1 fun hne => hhalted (h.haltCauseIff.1 hne), hcause, hpc, hinfo⟩

/-! #### The invariant in each RUN_STATE, from the bounds and the status registers -/

section
variable {s : State} (hdata : DataBounds s)
include hdata

theorem runInvariant_of_running (hclear : StatusClear s) (hrun : s.runState = .running) : RunInvariant s :=
  { hdata with
    loadIsReset := fun hload => nomatch hrun.symm.trans hload
    haltCauseIff := by simp [hclear.haltCause, hrun]
    faultCauseIff := by simp [hclear.faultCause, hrun]
    faultRegsClear := fun _ => ⟨hclear.faultPc, hclear.faultInfo⟩
    waitingAtIn := fun hwait => nomatch hrun.symm.trans hwait }

theorem runInvariant_halt (hclear : StatusClear s) {cause : HaltCause} (hcause : cause ≠ .none) : RunInvariant (s.halt cause) :=
  { hdata with
    loadIsReset := fun hload => nomatch hload
    haltCauseIff := by simp [hcause]
    faultCauseIff := by simp [hclear.faultCause]
    faultRegsClear := fun _ => ⟨hclear.faultPc, hclear.faultInfo⟩
    waitingAtIn := fun hwait => nomatch hwait }

theorem runInvariant_raiseAt (hclear : StatusClear s) (p : Word) {cause : FaultCause} (info : Word) (hcause : cause ≠ .none) :
    RunInvariant (s.raiseAt p cause info) :=
  { hdata with
    loadIsReset := fun hload => nomatch hload
    haltCauseIff := by simp [hclear.haltCause]
    faultCauseIff := by simp [hcause]
    faultRegsClear := fun hnone => absurd hnone hcause
    waitingAtIn := fun hwait => nomatch hwait }

theorem runInvariant_wait (hclear : StatusClear s) {a : Operand} {A : RegIdx} (hqueue : s.inputQueue = [])
    (hfetch : fetch s = .instr (.in_ a)) (hA : lvalue a = .ok A) : RunInvariant (s.setRunState .waitInput) :=
  { hdata with
    loadIsReset := fun hload => nomatch hload
    haltCauseIff := by simp [hclear.haltCause]
    faultCauseIff := by simp [hclear.faultCause]
    faultRegsClear := fun _ => ⟨hclear.faultPc, hclear.faultInfo⟩
    waitingAtIn := fun _ => ⟨hqueue, a, A, hfetch, hA⟩ }

end

theorem resetWith_runInvariant (params : Params) (host : List HostEvent) : RunInvariant (State.resetWith params host) where
  memCanonical := rfl
  memInside a _ := readByte_nil a
  memLenMax := Nat.zero_le memMax
  pcMax := Nat.zero_le memMax
  stackEntries := nofun
  stackBound n _ := Nat.zero_le n
  loadIsReset _ := rfl
  haltCauseIff := by simp
  faultCauseIff := by simp
  faultRegsClear _ := ⟨rfl, rfl⟩
  waitingAtIn hwait := nomatch hwait

/-! #### Every form of a step keeps the invariant -/

/-- What the host does next is no part of the invariant. -/
theorem RunInvariant.setHost {s : State} (h : RunInvariant s) (host : List HostEvent) : RunInvariant (s.setHost host) := by
  have hfetch : fetch (s.setHost host) = fetch s := fetch_congr rfl rfl rfl
  exact { h with
    loadIsReset := fun hload => congrArg (State.setHost · host) (h.loadIsReset hload)
    waitingAtIn := fun hwait => hfetch ▸ h.waitingAtIn hwait }

section
variable {s : State} (h : RunInvariant s)
include h

/-- In RUNNING, the fetched instruction keeps the invariant. -/
theorem RunInvariant.effect {i : Instr} {t : State} (hrun : s.runState = .running) (hfetch : fetch s = .instr i)
    (heffect : Effect s i t) : RunInvariant t := by
  have hdata := h.dataBounds
  have hclear := h.statusClear (by simp [hrun]) (by simp [hrun])
  have hfits := fits_of_fetch hfetch
  obtain ⟨cause, info, hraised, rfl⟩ | ⟨rfl, rfl⟩ | ⟨a, A, rfl, hA, hqueue, rfl⟩ | hsame := heffect.status
  case inl => exact runInvariant_raiseAt hdata hclear s.pc info hraised.ne_none
  case inr.inl => exact runInvariant_halt (hdata.advance (width := 1) hfits) (hclear.congr rfl rfl rfl rfl) (by decide)
  case inr.inr.inl =>
    have hfetch' : fetch (s.emit .lineRequest) = .instr (.in_ a) := (fetch_congr rfl rfl rfl).trans hfetch
    exact runInvariant_wait (hdata.emit _) (hclear.congr rfl rfl rfl rfl) hqueue hfetch' hA
  case inr.inr.inr =>
    obtain ⟨hrunState, hhalt, hfault, hpc, hinfo⟩ := hsame
    exact runInvariant_of_running (hdata.effect heffect hfits)
      (hclear.congr hhalt hfault hpc hinfo) (hrunState.trans hrun)

/-- The CORE's own step keeps the invariant. -/
theorem RunInvariant.runFetched {t : State} (hrun : s.runState = .running) (hstep : runFetched exec s (fetch s) = .next t) :
    RunInvariant t := by
  have hdata := h.dataBounds
  have hclear := h.statusClear (by simp [hrun]) (by simp [hrun])
  obtain ⟨-, rfl⟩ | ⟨op, hunknown, rfl⟩ | ⟨addr, -, rfl⟩ | ⟨i, hfetch, heffect⟩ := runFetched_next hstep
  case inl => exact runInvariant_halt hdata hclear (by decide)
  case inr.inl =>
    have hin : s.pc.toNat < s.memLen.toNat := by
      by_contra hout
      rw [fetch_endOfMemory (Nat.not_lt.1 hout)] at hunknown
      nomatch hunknown
    exact runInvariant_of_running ((hdata.emit _).advance hin) (hclear.congr rfl rfl rfl rfl) hrun
  case inr.inr.inl => exact runInvariant_raiseAt hdata hclear s.pc addr (by decide)
  case inr.inr.inr => exact h.effect hrun hfetch heffect

/-- A line that arrives keeps the invariant: once the queue is refilled the machine runs, at the IN. -/
theorem RunInvariant.lineArrives {codes : List Word} {t : State} (hwait : s.runState = .waitInput)
    (hstep : lineArrives exec codes s = .next t) : RunInvariant t := by
  have hclear := h.statusClear (by simp [hwait]) (by simp [hwait])
  obtain ⟨-, rfl⟩ | ⟨-, a, hfetch, hexec⟩ := lineArrives_next hstep
  case inl => exact runInvariant_raiseAt h.dataBounds hclear s.pc _ (by decide)
  case inr =>
    have hrefilled : RunInvariant (refill codes s) :=
      runInvariant_of_running (h.dataBounds.congr rfl rfl rfl rfl rfl) (hclear.congr rfl rfl rfl rfl) rfl
    have hfetch' : fetch (refill codes s) = .instr (.in_ a) := (fetch_congr rfl rfl rfl).trans hfetch
    exact hrefilled.effect rfl hfetch' (exec_effect hexec)

/-- A load keeps the invariant: the machine in LOAD is at its reset values, and a good image is at most MEM_MAX words. -/
theorem RunInvariant.loadImage (image : List Byte) (hload : s.runState = .load) : RunInvariant (loadImage image s) := by
  have hdata := h.dataBounds
  have hclear := h.statusClear (by simp [hload]) (by simp [hload])
  obtain ⟨info, hresult⟩ | ⟨heven, hmax, hresult⟩ := loadImage_cases image s <;> rw [hresult]
  case inl => exact runInvariant_raiseAt hdata hclear 0 info (by decide)
  case inr =>
    have hmemLen := loadedState_memLen s hmax
    refine runInvariant_of_running ?_ (hclear.congr rfl rfl rfl rfl) rfl
    constructor
    case memCanonical => exact wf_ofBytes image 0
    case memInside =>
      intro a ha
      have hbeyond : image.length ≤ a := by omega
      rw [loadedState, readByte_ofBytes, if_pos (Nat.zero_le a), Nat.sub_zero, List.getD_eq_default _ _ hbeyond]
    case memLenMax => exact hmemLen.trans_le hmax
    case pcMax => exact Nat.zero_le memMax
    case stackEntries => exact hdata.stackEntries
    case stackBound => exact hdata.stackBound

end

end Sys2Proof.Machine

section
open Sys2Proof Sys2Proof.Machine

/-- Settles O58: the reset values, whatever the parameters and the host's events, meet each clause. -/
theorem resetMeetsInvariant : Obligations.ResetMeetsInvariant :=
  resetWith_runInvariant defaultParams []

/-- Settles O59: each of the five forms of a step keeps the invariant. -/
theorem stepKeepsInvariant : Obligations.StepKeepsInvariant := by
  intro s t hinv hstep
  obtain ⟨s', hs', hrun, -, hcore⟩ | ⟨rest, -, rfl⟩ | ⟨image, rest, -, hload, rfl⟩ | ⟨codes, rest, -, hwait, hline⟩ |
    ⟨e, rest, -, -, rfl⟩ := step_next hstep
  · obtain rfl | ⟨rest, -, rfl⟩ := hs'
    · exact hinv.runFetched hrun hcore
    · exact (hinv.setHost rest).runFetched hrun hcore
  · exact resetWith_runInvariant _ _
  · exact (hinv.setHost rest).loadImage image hload
  · exact (hinv.setHost rest).lineArrives hwait hline
  · exact hinv.setHost rest

end

/-! ### HALT, PUSH, POP, CALL and RET -/

namespace Sys2Proof.Machine

theorem State.stackFull_iff {s : State} : s.stackFull = true ↔ s.params.stackCapacity = some s.stack.length := by
  simp [State.stackFull]

theorem push_frame (s : State) (w : Word) : FrameBut [.stack] s (s.push w) := setStack_frame s (w :: s.stack)

section
variable {a : Operand} {s : State} {A : Value} (hA : rvalue a s = .ok A)
include hA

theorem execPush_room (hroom : s.params.stackCapacity ≠ some s.stack.length) :
    execPush a s = .next ((s.push (A.setWidth 16)).advance 2) := by
  rw [execPush, withRead_ok hA, if_neg (mt State.stackFull_iff.1 hroom)]

theorem execPush_full (hfull : s.params.stackCapacity = some s.stack.length) :
    execPush a s = .next (s.raise .stackOverflow (A.setWidth 16)) := by
  rw [execPush, withRead_ok hA, if_pos (State.stackFull_iff.2 hfull)]

theorem execCall_room (hroom : s.params.stackCapacity ≠ some s.stack.length) :
    execCall a s = .next ((s.push (s.pc + 2)).setPc (A.setWidth 16)) := by
  rw [execCall, withRead_ok hA, if_neg (mt State.stackFull_iff.1 hroom)]

theorem execCall_full (hfull : s.params.stackCapacity = some s.stack.length) :
    execCall a s = .next (s.raise .stackOverflow (s.pc + 2)) := by
  rw [execCall, withRead_ok hA, if_pos (State.stackFull_iff.2 hfull)]

end

section
variable {a : Operand} {s : State} {A : RegIdx} (hA : lvalue a = .ok A)
include hA

theorem execPop_empty (hs : s.stack = []) : execPop a s = .next (s.raise .stackUnderflow 0) := by
  rw [execPop, withWrite_ok hA, hs]

theorem execPop_fits {v : Word} {rest : List Word} (hs : s.stack = v :: rest) (hv : v.toNat ≤ 32767) :
    execPop a s = .next (((s.setStack rest).setReg A (v.setWidth 15)).advance 2) := by
  simp only [execPop, withWrite_ok hA, hs, withRegisterValue_fits hv]

theorem execPop_tooLarge {v : Word} {rest : List Word} (hs : s.stack = v :: rest) (hv : 32767 < v.toNat) :
    execPop a s = .next (s.raise .wordRange v) := by
  simp only [execPop, withWrite_ok hA, hs, withRegisterValue_over hv]

end

/-- A word that fits a register is the same number in it (R23). -/
theorem setWidth_toNat_of_fits {w : Word} (h : w.toNat ≤ 32767) : (w.setWidth 15).toNat = w.toNat := by
  rw [BitVec.toNat_setWidth, Nat.mod_eq_of_lt (by omega)]

end Sys2Proof.Machine

section
open Sys2Proof Sys2Proof.Machine

/-- Settles O13: HALT is a one-word form whose effect is to advance and to halt. -/
theorem haltEndsTheRun : Obligations.HaltEndsTheRun :=
  ⟨encodedAs_one_word (by decide), fun s => ⟨(s.advance 1).halt .haltOpcode, rfl, rfl, rfl, (advance_frame s 1).trans (halt_frame _ _)⟩⟩

/-- Settles O16: PUSH resolves its operand, then the capacity decides between one word on top and the fault. -/
theorem pushPutsResolvedValueOnTop : Obligations.PushPutsResolvedValueOnTop := by
  refine ⟨encodedAs_one_operand fun _ => rfl, fun a s A hA => ⟨fun hroom => ?room, fun hfull => ?full⟩⟩
  case room =>
    exact ⟨_, A.setWidth 16, execPush_room hA hroom, State.push_stack .., value_setWidth_toNat A, State.advance_pc ..,
      (push_frame s _).trans (advance_frame _ 2)⟩
  case full => exact faultsWith_of_raise (execPush_full hA hfull)

/-- Settles O17: POP resolves its operand, then the stack and the range of its top word decide between three outcomes. -/
theorem popTakesTopOfStack : Obligations.PopTakesTopOfStack := by
  refine ⟨encodedAs_one_operand fun _ => rfl, fun a s A hA =>
    ⟨fun hs => ?empty, fun v rest hs hv => ?fits, fun v rest hs hv => ?tooLarge⟩⟩
  case empty => exact faultsWith_of_raise (execPop_empty hA hs)
  case fits =>
    refine ⟨_, execPop_fits hA hs hv, ?reg, rfl, rfl,
      (((setStack_frame s rest).trans (setReg_frame _ A _)).trans (advance_frame _ 2)).mono (by simp)⟩
    case reg => rw [State.advance_reg, State.reg_setReg_same, setWidth_toNat_of_fits hv]
  case tooLarge => exact faultsWith_of_raise (execPop_tooLarge hA hs hv)

/-- Settles O33: CALL resolves its operand, then the capacity decides between the push and jump and the fault. -/
theorem callPushesReturnAddress : Obligations.CallPushesReturnAddress := by
  refine ⟨encodedAs_one_operand fun _ => rfl, fun a s A hA => ⟨fun hroom => ?room, fun hfull => ?full⟩⟩
  case room =>
    exact ⟨_, execCall_room hA hroom, rfl, value_setWidth_toNat A, (push_frame s _).trans (setPc_frame _ _)⟩
  case full => exact faultsWith_of_raise (execCall_full hA hfull)

/-- Settles O35: a CALL that does not fault has put `pc + 2` on top, and RET takes the top word to pc. -/
theorem callThenRetReturns : Obligations.CallThenRetReturns := by
  intro a s t u _ hcall hfault hstack
  have hpushed : t.stack = (s.pc + 2) :: s.stack := by
    cases exec_effect hcall
    case operandFault | raised => exact absurd (State.raise_runState ..) hfault
    case call => rfl
  exact ⟨_, execRet_cons (hstack.trans hpushed), rfl, rfl, ((setStack_frame u s.stack).trans (setPc_frame _ _)).mono (by simp)⟩

end

/-! ### JT and JF (44_branch.md) -/

namespace Sys2Proof.Machine

theorem branchIf_frame (taken : Bool) (target : Value) (s : State) : FrameBut [.pc] s (branchIf taken target s) := by
  cases taken
  case false => exact advance_frame s 3
  case true => exact setPc_frame s _

theorem branchIf_taken_pc (target : Value) (s : State) : (branchIf true target s).pc.toNat = target.toNat :=
  value_setWidth_toNat target

theorem isNonZero_of_ne {v : Value} (h : v.toNat ≠ 0) : isNonZero v = true := by
  rw [isNonZero_eq_decide, decide_eq_true h]

theorem isNonZero_of_eq {v : Value} (h : v.toNat = 0) : isNonZero v = false := by
  rw [isNonZero_eq_decide, h]; rfl

end Sys2Proof.Machine

section
open Sys2Proof Sys2Proof.Machine

/-- Settles O21: JT resolves both operands, then branches on a non-zero condition. -/
theorem jtJumpsOnNonZero : Obligations.JtJumpsOnNonZero := by
  refine ⟨encodedAs_two_operands fun _ => rfl, fun a b s =>
    ⟨operandFaultsFirst_of_raise fun _ hfault => exec_operandFault hfault, fun A B hA hB =>
      ⟨branchIf (isNonZero A) B s, withReads2_ok hA hB _, fun htrue => ?taken, fun hfalse => ?notTaken, branchIf_frame _ B s⟩⟩⟩
  case taken => rw [isNonZero_of_ne htrue, branchIf_taken_pc]
  case notTaken => rw [isNonZero_of_eq hfalse]; rfl

/-- Settles O22: JF resolves both operands, then branches on a condition of 0. -/
theorem jfJumpsOnZero : Obligations.JfJumpsOnZero := by
  refine ⟨encodedAs_two_operands fun _ => rfl, fun a b s =>
    ⟨operandFaultsFirst_of_raise fun _ hfault => exec_operandFault hfault, fun A B hA hB =>
      ⟨branchIf (!isNonZero A) B s, withReads2_ok hA hB _, fun hfalse => ?taken, fun htrue => ?notTaken, branchIf_frame _ B s⟩⟩⟩
  case taken => rw [isNonZero_of_eq hfalse, Bool.not_false, branchIf_taken_pc]
  case notTaken => rw [isNonZero_of_ne htrue]; rfl

end

/-! ### MOD and NOT (45_alu.md) -/

namespace Sys2Proof.Machine

theorem aluMod_toNat (B C : Value) : (aluMod B C).toNat = B.toNat % C.toNat := by
  rw [aluMod, BitVec.toNat_ofNat, Nat.mod_eq_of_lt ((Nat.mod_le _ _).trans_lt B.isLt)]

/-- The 15-bit complement is its own inverse. -/
theorem aluNot_aluNot (B : Value) : aluNot (aluNot B) = B := by
  apply BitVec.eq_of_toNat_eq
  have hB := B.isLt
  rw [aluNot_toNat, aluNot_toNat]
  omega

section
variable {a b c : Operand} {s : State} {A : RegIdx} {B C : Value} (hA : lvalue a = .ok A) (hB : rvalue b s = .ok B)
  (hC : rvalue c s = .ok C)
include hA hB hC

theorem execMod_nonzero (hdivisor : C.toNat ≠ 0) : execMod a b c s = .next ((s.setReg A (aluMod B C)).advance 4) := by
  rw [execMod, withWrite_ok hA, withReads2_ok hB hC, if_neg hdivisor]

theorem execMod_zero (hdivisor : C.toNat = 0) : execMod a b c s = .next (s.raise .divideByZero (B.setWidth 16)) := by
  rw [execMod, withWrite_ok hA, withReads2_ok hB hC, if_pos hdivisor]

end

end Sys2Proof.Machine

section
open Sys2Proof Sys2Proof.Machine

/-- Settles O25: MOD resolves its three operands, then the divisor decides between the remainder and the fault. -/
theorem modKeepsUnsignedRemainder : Obligations.ModKeepsUnsignedRemainder := by
  refine ⟨encodedAs_three_operands fun _ => rfl, fun a b c s A B C hA hB hC => ⟨fun hdivisor => ?remainder, fun hdivisor => ?zero⟩⟩
  case remainder =>
    refine ⟨_, execMod_nonzero hA hB hC hdivisor, ?reg, rfl, (setReg_frame s A _).trans (advance_frame _ 4)⟩
    case reg => rw [State.advance_reg, State.reg_setReg_same, aluMod_toNat]
  case zero => exact faultsWith_of_raise (execMod_zero hA hB hC hdivisor)

/-- Settles O29: the second NOT reads what the first wrote, and the complement of the complement is the value. -/
theorem notTwiceRestoresValue : Obligations.NotTwiceRestoresValue := by
  intro a a' b s A A' B hA hA' hB
  have hread : rvalue (.reg A) ((s.setReg A (aluNot B)).advance 3) = .ok (aluNot B) := by
    rw [rvalue_reg, State.advance_reg, State.reg_setReg_same]
  refine ⟨_, _, unaryToReg_ok hA hB, unaryToReg_ok hA' hread, ?_⟩
  rw [State.advance_reg, State.reg_setReg_same, aluNot_aluNot]

end

/-! ### RMEM, and a WMEM that the next fetch sees (46_memory_access.md, 20_memory.md section 5) -/

namespace Sys2Proof.Machine

section
variable {a b : Operand} {s : State} {A : RegIdx} {B : Value} (hA : lvalue a = .ok A) (hB : rvalue b s = .ok B)
include hA hB

theorem execRmem_fits (hin : B.toNat < s.memLen.toNat) (hv : (s.mem.readWord B.toNat).toNat ≤ 32767) :
    execRmem a b s = .next ((s.setReg A ((s.mem.readWord B.toNat).setWidth 15)).advance 3) := by
  rw [execRmem, withWrite_ok hA, withRead_ok hB, if_pos (State.inMemory_iff.2 hin), withRegisterValue_fits hv]

theorem execRmem_tooLarge (hin : B.toNat < s.memLen.toNat) (hv : 32767 < (s.mem.readWord B.toNat).toNat) :
    execRmem a b s = .next (s.raise .wordRange (s.mem.readWord B.toNat)) := by
  rw [execRmem, withWrite_ok hA, withRead_ok hB, if_pos (State.inMemory_iff.2 hin), withRegisterValue_over hv]

theorem execRmem_beyondMemory (hout : s.memLen.toNat ≤ B.toNat) :
    execRmem a b s = .next (s.raise .memoryRange (B.setWidth 16)) := by
  rw [execRmem, withWrite_ok hA, withRead_ok hB, if_neg (by rw [State.inMemory_iff]; exact Nat.not_lt.2 hout)]

end

/-- A WMEM to the word at `pc + 3` leaves pc at that word, which then holds the stored value. -/
theorem execWmem_nextWord {a b : Operand} {s : State} {A B : Value} (hA : rvalue a s = .ok A) (hB : rvalue b s = .ok B)
    (hnext : A.toNat = s.pc.toNat + 3) (hin : A.toNat < s.memLen.toNat) :
    ∃ t, execWmem a b s = .next t ∧ t.memLen = s.memLen ∧ t.pc.toNat = A.toNat ∧ t.mem.readWord A.toNat = B.setWidth 16 := by
  refine ⟨_, execWmem_inMemory hA hB hin, rfl, ?pc, ?word⟩
  case pc =>
    have hlt := A.isLt
    rw [State.advance_pc, State.setMem_pc, hnext]
    bv_omega
  case word => rw [State.advance_mem, State.setMem_mem, readWord_writeWord, if_pos rfl]

/-- The first word of an instruction that stands at `pc` is its opcode. -/
theorem StandsAtPc.opcode_eq {i : Instr} {s : State} (h : StandsAtPc i s) : s.mem.readWord s.pc.toNat = i.opcode :=
  h.2 0 i.opcode rfl

end Sys2Proof.Machine

section
open Sys2Proof Sys2Proof.Machine

/-- Settles O30: RMEM resolves its operands, then the address and the range of the stored word decide between three outcomes. -/
theorem rmemMovesStoredWord : Obligations.RmemMovesStoredWord := by
  refine ⟨encodedAs_two_operands fun _ => rfl, fun a b s A B hA hB =>
    ⟨fun hin hv => ?fits, fun hin hv => ?tooLarge, fun hout => ?beyond⟩⟩
  case fits =>
    refine ⟨_, execRmem_fits hA hB hin hv, ?reg, rfl, (setReg_frame s A _).trans (advance_frame _ 3)⟩
    case reg => rw [State.advance_reg, State.reg_setReg_same, setWidth_toNat_of_fits hv]
  case tooLarge => exact faultsWith_of_raise (execRmem_tooLarge hA hB hin hv)
  case beyond => exact faultsWith_of_raise (execRmem_beyondMemory hA hB hout)

/-- Settles O32: the WMEM leaves pc at the word it wrote, which is the word the next fetch reads. -/
theorem nextFetchSeesWmem : Obligations.NextFetchSeesWmem := by
  intro a b s A B hA hB hnext hin
  obtain ⟨t, hexec, hmemLen, hpc, hword⟩ := execWmem_nextWord hA hB hnext hin
  rw [← hpc] at hword
  have hnat : (t.mem.readWord t.pc.toNat).toNat = B.toNat := by rw [hword, value_setWidth_toNat]
  refine ⟨t, hexec, hpc, hnat, fun u hturn => ⟨fun i hwf hstands => ?runs, fun hlarge => ?unknown⟩⟩
  case runs => exact ⟨by rw [← hstands.opcode_eq, hnat], hturn.step_of_standsAtPc hwf hstands⟩
  case unknown =>
    refine ⟨skipUnknown (B.setWidth 16) u, ?step, ?trace⟩
    case step => rw [hturn.step_eq, fetch_unknown (by rwa [hpc, hmemLen]) (by rwa [hnat]), runFetched, hword]
    case trace => rw [hturn.eq_setHost]; rfl

end

/-! ### IN (48_io.md) -/

namespace Sys2Proof.Machine

theorem setRunState_frame (s : State) (r : RunState) : FrameBut [.runState] s (s.setRunState r) := by
  intro part hpart
  cases part
  case runState => exact absurd (by decide) hpart
  all_goals rfl

theorem setQueue_frame (s : State) (q : List Word) : FrameBut [.inputQueue] s (s.setQueue q) := by
  intro part hpart
  cases part
  case inputQueue => exact absurd (by decide) hpart
  all_goals rfl

section
variable {a : Operand} {s : State} {A : RegIdx} (hA : lvalue a = .ok A)
include hA

theorem execIn_empty (hq : s.inputQueue = []) : execIn a s = .next ((s.emit .lineRequest).setRunState .waitInput) := by
  rw [execIn, withWrite_ok hA, hq]

theorem execIn_fits {c : Word} {q : List Word} (hq : s.inputQueue = c :: q) (hc : c.toNat ≤ 32767) :
    execIn a s = .next (((s.setQueue q).setReg A (c.setWidth 15)).advance 2) := by
  simp only [execIn, withWrite_ok hA, hq, withRegisterValue_fits hc]

theorem execIn_tooLarge {c : Word} {q : List Word} (hq : s.inputQueue = c :: q) (hc : 32767 < c.toNat) :
    execIn a s = .next (s.raise .wordRange c) := by
  simp only [execIn, withWrite_ok hA, hq, withRegisterValue_over hc]

end

theorem takeCode_frame (s : State) (q : List Word) (A : RegIdx) (v : Value) :
    FrameBut [.reg A, .inputQueue, .pc] s (((s.setQueue q).setReg A v).advance 2) :=
  (((setQueue_frame s q).trans (setReg_frame _ A v)).trans (advance_frame _ 2)).mono (by simp)

end Sys2Proof.Machine

section
open Sys2Proof Sys2Proof.Machine

/-- Settles O37: IN resolves its operand, then the queue and the range of its front code decide between three outcomes. -/
theorem inTakesFrontOrWaits : Obligations.InTakesFrontOrWaits := by
  refine ⟨encodedAs_one_operand fun _ => rfl, fun a s A hA =>
    ⟨fun c q hq hc => ?fits, fun hq => ?waits, fun c q hq hc => ?tooLarge⟩⟩
  case fits =>
    refine ⟨_, execIn_fits hA hq hc, ?reg, rfl, rfl, takeCode_frame s q A _⟩
    case reg => rw [State.advance_reg, State.reg_setReg_same, setWidth_toNat_of_fits hc]
  case waits =>
    exact ⟨_, execIn_empty hA hq, rfl, rfl, ((emit_frame s _).trans (setRunState_frame _ _)).mono (by simp)⟩
  case tooLarge => exact faultsWith_of_raise (execIn_tooLarge hA hq hc)

end

/-! ### A line, an image and RESET by the host (10_state.md section 9, 20_memory.md section 2, 48_io.md) -/

namespace Sys2Proof.Machine

/-! #### The step at each host event -/

section
variable {s : State} {codes : List Word} {rest : List HostEvent}

/-- In WAIT_INPUT a line arrives, whether it comes now or was held (R42). -/
theorem step_line_waiting (hwait : s.runState = .waitInput) (he : s.hostEvents = .line codes :: rest ∨ s.hostEvents = .answer codes :: rest) :
    step s = lineArrives exec codes (s.setHost rest) := by
  obtain he | he := he <;> rw [step, engineStep, he] <;> exact if_pos hwait

theorem step_line_not_waiting (hwait : s.runState ≠ .waitInput) (he : s.hostEvents = .line codes :: rest) :
    step s = .next (s.setHost rest) := by
  rw [step, engineStep, he]
  exact if_neg hwait

theorem step_load {image : List Byte} (hload : s.runState = .load) (he : s.hostEvents = .load image :: rest) :
    step s = .next (loadImage image (s.setHost rest)) := by
  rw [step, engineStep, he]
  simp only [hostLoad, State.setHost_runState, hload]

theorem step_reset (he : s.hostEvents = .reset :: rest) : step s = .next (s.setHost rest).resetRun := by
  rw [step, engineStep, he]

theorem step_waiting_quiet (hwait : s.runState = .waitInput) (he : s.hostEvents = []) : step s = .fault .noLineArrives := by
  rw [step, engineStep, he]
  simp only [coreStep, hwait]

end

/-! #### The arrival of a line -/

theorem lineTooLong_eq_false {codes : List Word} {s : State} (h : ∀ n, s.params.inputLineMax = some n → codes.length ≤ n) :
    lineTooLong codes s = false := by
  rw [lineTooLong]
  cases hn : s.params.inputLineMax with
  | none => rfl
  | some n => exact decide_eq_false (Nat.not_lt.2 (h n hn))

theorem lineTooLong_eq_true {codes : List Word} {s : State} {n : Nat} (hn : s.params.inputLineMax = some n) (h : n < codes.length) :
    lineTooLong codes s = true := by
  simp only [lineTooLong, hn, h, decide_true]

/-- A line that fits refills the queue, and the IN that stands at `pc` runs (R215). -/
theorem lineArrives_runs_in {codes : List Word} {s : State} {a : Operand} (hfits : lineTooLong codes s = false)
    (hfetch : fetch s = .instr (.in_ a)) : lineArrives exec codes s = exec (.in_ a) (refill codes s) := by
  have hfetch' : fetch (refill codes s) = .instr (.in_ a) := (fetch_congr rfl rfl rfl).trans hfetch
  rw [lineArrives, hfits, if_neg Bool.false_ne_true, hfetch']

theorem lineArrives_tooLong {codes : List Word} {s : State} (hlong : lineTooLong codes s = true) :
    lineArrives exec codes s = .next (s.raise .inputOverflow (BitVec.ofNat 16 (min codes.length 65535))) := by
  rw [lineArrives, if_pos hlong]

theorem refill_frame (codes : List Word) (s : State) : FrameBut [.inputQueue, .runState] s (refill codes s) :=
  (setQueue_frame s _).trans (setRunState_frame _ _)

/-! #### The loaded memory -/

theorem readWord_ofBytes_toNat {image : List Byte} {i : Nat} {lo hi : Byte} (hlo : image[2 * i]? = some lo)
    (hhi : image[2 * i + 1]? = some hi) : ((Memory.ofBytes 0 image).readWord i).toNat = lo.toNat + 256 * hi.toNat := by
  have hbyte : ∀ x b, image[x]? = some b → (Memory.ofBytes 0 image).readByte x = b := by
    intro x b hb
    rw [readByte_ofBytes, if_pos (Nat.zero_le x), Nat.sub_zero, List.getD_eq_getElem?_getD, hb, Option.getD_some]
  rw [Memory.readWord, hbyte _ _ hlo, hbyte _ _ hhi, wordOfBytes_toNat]
  omega

theorem resetWith_atResetValues (params : Params) (host : List HostEvent) : AtResetValues (State.resetWith params host) :=
  ⟨State.reg_resetWith params host, rfl, rfl, rfl, rfl, rfl, rfl, rfl, rfl, rfl, rfl, rfl⟩

end Sys2Proof.Machine

section
open Sys2Proof Sys2Proof.Machine

/-- Settles O38: the line refills the queue and the IN at pc runs, whose two outcomes on a non-empty queue these are. -/
theorem lineRefillsQueueAndCompletesIn : Obligations.LineRefillsQueueAndCompletesIn := by
  intro s codes rest a A c q hwait he hwf hstands hA _ hmax hcodes
  have hfetch : fetch (s.setHost rest) = .instr (.in_ a) :=
    (fetch_congr rfl rfl rfl).trans (fetch_of_standsAtPc (by simpa [Instr.wf, Instr.operands] using hwf) hstands)
  have hstep : step s = execIn a (refill codes (s.setHost rest)) := by
    rw [step_line_waiting hwait he, lineArrives_runs_in (lineTooLong_eq_false (s := s.setHost rest) hmax) hfetch, exec]
  have hframe : FrameBut [.hostEvents, .inputQueue, .runState] s (refill codes (s.setHost rest)) :=
    (setHost_frame s rest).trans (refill_frame codes _)
  refine ⟨fun hc => ?fits, fun hc => ?tooLarge⟩
  case fits =>
    refine ⟨_, hstep.trans (execIn_fits hA hcodes hc), rfl, ?reg, rfl, rfl, rfl, (hframe.trans (takeCode_frame _ q A _)).mono (by simp)⟩
    case reg => rw [State.advance_reg, State.reg_setReg_same, setWidth_toNat_of_fits hc]
  case tooLarge =>
    obtain ⟨hrun, hcause, hpc, hinfo, hraise⟩ := raise_faultEntry (refill codes (s.setHost rest)) .wordRange c
    exact ⟨_, hstep.trans (execIn_tooLarge hA hcodes hc), hrun, hcause, hpc, hinfo, hcodes, rfl, (hframe.trans hraise).mono (by simp)⟩

/-- Settles O39: the line that is too long raises at its arrival; its length is cut to a 16-bit info. -/
theorem tooLongLineFaults : Obligations.TooLongLineFaults := by
  intro s codes rest n hwait he hn hlong
  refine ⟨_, _, (step_line_waiting hwait he).trans (lineArrives_tooLong (lineTooLong_eq_true hn hlong)), ?info, raise_faultEntry ..⟩
  case info => rw [BitVec.toNat_ofNat, Nat.mod_eq_of_lt (by omega)]

/-- Settles O40: outside WAIT_INPUT the entry is dropped, and in WAIT_INPUT the CORE has no step of its own. -/
theorem linesCountOnlyWhileWaiting : Obligations.LinesCountOnlyWhileWaiting := by
  intro s
  refine ⟨fun codes rest he hwait => ?consumed, step_waiting_quiet⟩
  case consumed => exact ⟨_, step_line_not_waiting hwait he, rfl, setHost_frame s rest⟩

/-- Settles O41: a good image gives the loaded state, whose memory holds the image's bytes. -/
theorem loadFillsMemoryLittleEndian : Obligations.LoadFillsMemoryLittleEndian := by
  intro s image rest hload he hne heven hmax
  refine ⟨loadedState image (s.setHost rest), ?step, rfl, rfl, loadedState_memLen _ hmax, fun i lo hi hlo hhi => ?word,
    fun i => rfl, rfl, rfl, rfl, rfl, rfl, rfl⟩
  case step => rw [step_load hload he, loadImage_good _ hne heven hmax]
  case word => exact readWord_ofBytes_toNat hlo hhi

/-- Settles O42: each malformed image enters its fault, at address 0. -/
theorem malformedImageFaults : Obligations.MalformedImageFaults := by
  intro s image rest hload he
  have hfault : ∀ info, loadImage image (s.setHost rest) = (s.setHost rest).raiseAt 0 .malformedImage info →
      ∃ t, step s = .next t ∧ FaultEntry (s.setHost rest) t 0 .malformedImage info :=
    fun info hresult => ⟨_, by rw [step_load hload he, hresult], raiseAt_faultEntry ..⟩
  exact ⟨fun hempty => hfault 0 (loadImage_empty _ hempty), fun hodd => hfault 1 (loadImage_odd _ hodd),
    fun heven hlarge => hfault 2 (loadImage_large _ heven hlarge)⟩

/-- Settles O43: RESET gives the reset values with the parameters and the later events kept. -/
theorem resetGivesTableValues : Obligations.ResetGivesTableValues := by
  refine ⟨resetWith_atResetValues _ _, fun s rest he => ?_⟩
  exact ⟨_, step_reset he, resetWith_atResetValues _ _, rfl, rfl⟩

end

/-! ### What the host reads (10_state.md sections 7 and 9) -/

section
open Sys2Proof Sys2Proof.Machine

/-- Settles O60: each code is that of the table, and the end state is shown in the two final RUN_STATEs alone. -/
theorem hostReadsStatusCodesAndEndState : Obligations.HostReadsStatusCodesAndEndState := by
  intro s
  refine ⟨?runState, ?haltCause, ?faultCause, rfl, rfl, rfl, fun hfinal => ?shown, fun hhalted hfaulted => ?hidden⟩
  case runState => rw [hostStatus]; cases s.runState <;> rfl
  case haltCause => rw [hostStatus]; cases s.haltCause <;> rfl
  case faultCause => rw [hostStatus]; cases s.faultCause <;> rfl
  case shown =>
    refine ⟨_, if_pos hfinal, fun i => rfl, rfl, rfl, ?length, fun i hi => ?word⟩
    case length => rw [List.length_map, List.length_range]
    case word => rw [List.getElem?_map, List.getElem?_range hi, Option.map_some]
  case hidden => exact if_neg (not_or.2 ⟨hhalted, hfaulted⟩)

end
